-- ==== Sys2Proof/Word.lean ====
section
/-!
DEFINITION. The value types of the core (00_scope.md R7, R8): every value is unsigned, bits are numbered
from 0 at the least significant end, and addition wraps modulo the width (R9).
-/

namespace Sys2Proof

/-- `u64`: a word of the hash state, of the working array, of a message block and of the counter (R7, R8). -/
abbrev Word := BitVec 64

/-- `u8`: a byte of the staging buffer, of a payload or of a response (R8, R45). -/
abbrev Byte := BitVec 8

/-- `u32`: a command's header word and the STATUS word (R28, R60). -/
abbrev Header := BitVec 32

/-- `u128`: the byte counter `T = T1 · 2^64 + T0` (R22). -/
abbrev Counter := BitVec 128

/-- The hash state `H[0..7]`: 8 unsigned 64-bit words (R20, R21). -/
abbrev HashState := Vector Word 8

/-- A 128-byte block: what one compression consumes, and what the staging buffer holds (R7, R23). -/
abbrev Block := Vector Byte 128

end Sys2Proof
end

