-- ==== Sys2Proof/Config.lean ====
section
/-!
DEFINITION. The free values of the model: what the spec leaves unspecified and does not let software observe.
Each is a constant with no body, so that nothing can be proved of its value.
-/

namespace Sys2Proof

/-- FREE VALUE (log entry 2): the 64-bit word that register number `i` holds after the `n`-th assertion of the
reset input, for `i` = 0..7 the hash words `H[i]`, for `i` = 8 and 9 the counter words `T0` and `T1`.
70_reset_and_hazards.md R160: "`H`, `T0`, `T1` and `B` become unspecified". -/
opaque Config.resetWord (n i : Nat) : Word

/-- FREE VALUE (log entry 2): the byte that `B[i]` holds after the `n`-th assertion of the reset input (R160). -/
opaque Config.resetByte (n i : Nat) : Byte

end Sys2Proof
end

