-- ==== Sys2Proof/Machine/Bytes.lean ====
section
/-!
DEFINITION. Byte order (20_memory.md R41, R42; 00_scope.md R10): little-endian everywhere, decided here once.
Every decoder and every response is built from these functions.
-/

namespace Sys2Proof.Machine

/-- The first `n` bytes of `s`, followed by zero bytes when `s` is shorter: `take(n, s ++ zeros(n))` (R10). -/
@[irreducible] def padTo (n : Nat) (s : List Byte) : Vector Byte n :=
  Vector.ofFn fun i => s.getD i 0

/-- `le64(s, k)`: the u64 that the bytes `s[8k .. 8k+7]` form in little-endian order (R10). -/
def le64 (s : List Byte) (k : Nat) : Word :=
  s.getD (8 * k + 7) 0 ++ s.getD (8 * k + 6) 0 ++ s.getD (8 * k + 5) 0 ++ s.getD (8 * k + 4) 0 ++
    s.getD (8 * k + 3) 0 ++ s.getD (8 * k + 2) 0 ++ s.getD (8 * k + 1) 0 ++ s.getD (8 * k) 0

/-- `le_bytes64(w)`: byte `j` is `w[8j+7 : 8j]` (R10). -/
def leBytes64 (w : Word) : List Byte :=
  [w.extractLsb' 0 8, w.extractLsb' 8 8, w.extractLsb' 16 8, w.extractLsb' 24 8,
   w.extractLsb' 32 8, w.extractLsb' 40 8, w.extractLsb' 48 8, w.extractLsb' 56 8]

/-- `le_bytes(W[0..n-1])`: the words' encodings one after the other (R10). -/
def leBytes {n : Nat} (ws : Vector Word n) : List Byte :=
  ws.toList.flatMap leBytes64

/-- The 32-bit word that four bytes form, the first byte the least significant (R41 c, R60). -/
def le32 (b0 b1 b2 b3 : Byte) : Header :=
  b3 ++ b2 ++ b1 ++ b0

/-- The four bytes of a 32-bit word, least significant first (R41 c, R60, R130). -/
def leBytes32 (w : Header) : List Byte :=
  [w.extractLsb' 0 8, w.extractLsb' 8 8, w.extractLsb' 16 8, w.extractLsb' 24 8]

/-- Word `k` of a payload's run of `n` little-endian words that starts at word offset `at0` (R65). -/
def le64Words (n : Nat) (s : List Byte) (at0 : Nat) : Vector Word n :=
  Vector.ofFn fun i => le64 s (at0 + i)

end Sys2Proof.Machine
end

