-- ==== Sys2Proof/Machine/Operands.lean ====
section
/-!
DEFINITION. The operand forms of a command (30_encoding.md R61 to R65): the fields of the 32-bit header, and the
payload length that the header alone determines. Every operand is unsigned; none is scaled or sign-extended.
-/

namespace Sys2Proof.Machine

/-- `OPC`, bits [31:28] (R61). -/
def hdrOpc (hdr : Header) : BitVec 4 := hdr.extractLsb' 28 4

/-- `RSV`, bits [27:24], must be 0 (R61). -/
def hdrRsv (hdr : Header) : BitVec 4 := hdr.extractLsb' 24 4

/-- `A`, bits [23:16] (R61): `NN` of format S (R62, R65). -/
def hdrA (hdr : Header) : Byte := hdr.extractLsb' 16 8

/-- `B`, bits [15:0] (R61): `LEN` of format L (R62, R65). -/
def hdrB (hdr : Header) : BitVec 16 := hdr.extractLsb' 0 16

/-- `B[15:8]`, must be 0 in format S (R62). -/
def hdrBHigh (hdr : Header) : Byte := hdr.extractLsb' 8 8

/-- `B[7:0]`: `KK` of format S (R62, R65). -/
def hdrBLow (hdr : Header) : Byte := hdr.extractLsb' 0 8

/-- `B[15:1]`, must be 0 in format K (R62). -/
def hdrBUpper (hdr : Header) : BitVec 15 := hdr.extractLsb' 1 15

/-- `B[0]`: `LAST` of format K (R62, R65). -/
def hdrLast (hdr : Header) : Bool := hdr.getLsbD 0

/-- The payload length of R63, a function of the header alone: the opcode's length for `OPC` 1..6, also when a
must-be-zero rule is broken (R63, R141), and 0 for a reserved opcode. -/
def payloadLength (hdr : Header) : Nat :=
  match (hdrOpc hdr).toNat with
  | 1 => 64
  | 2 => (hdrB hdr).toNat
  | 4 => 208
  | 5 => 16
  | _ => 0

end Sys2Proof.Machine
end

