-- ==== Sys2Proof/Syntax.lean ====
section
/-!
DEFINITION. The commands of the core, one constructor for each row of spec/opcode_table.json: the abstract
commands of 30_encoding.md R62 with the operands of R65. An illegal header is no command: the decoder rejects it.
-/

namespace Sys2Proof

/-- The six commands (R4, R66). -/
inductive Instr where
  /-- SETUP (R103): digest length `NN`, key length `KK` (any u8 is encodable, R65), and the 64 key bytes of the
  payload, of which the first `KK` are used. -/
  | setup (nn kk : Byte) (key : Vector Byte 64)
  /-- APPEND (R106): the `LEN` message bytes. -/
  | append (data : List Byte)
  /-- FINALIZE (R107). -/
  | finalize
  /-- COMPRESS (R87): explicit hash state, block, counter words and last-block flag. -/
  | compress (h : HashState) (block : Block) (t0 t1 : Word) (last : Bool)
  /-- SETCTR (R131): the new counter words. -/
  | setctr (t0 t1 : Word)
  /-- STATUS (R130). -/
  | status
  deriving DecidableEq, Repr

end Sys2Proof
end

