-- ==== Sys2Proof/WellFormed.lean ====
section
/-!
DEFINITION. Which commands have an encoding. The fixed-size operands carry their sizes in their types; the one
bound left is that of APPEND, whose `LEN` field has 16 bits (30_encoding.md R62, R63: 0..65535).
A SETUP with `NN` or `KK` out of range is well formed: it is encodable, and answered CONFIG_ERROR (R65, R67).
-/

namespace Sys2Proof

/-- A command that some header and payload encode (R63, R65). -/
def Instr.wellFormed : Instr → Bool
  | .setup _ _ _ => true
  | .append data => data.length ≤ 65535
  | .finalize => true
  | .compress _ _ _ _ _ => true
  | .setctr _ _ => true
  | .status => true

/-- The same as a proposition. -/
abbrev Instr.WellFormed (i : Instr) : Prop := i.wellFormed = true

end Sys2Proof
end

