-- ==== Sys2Proof/Decode.lean ====
section
/-!
DEFINITION. The decoder and the encoder of 30_encoding.md: R66 (opcode map), R67 (illegal headers), R68 (total
decoding), R63 and R65 (payloads), R60 and R69 (framing on a byte transport).
-/

namespace Sys2Proof

open Machine

/-- Why a header is illegal: one name for each case of R67. -/
inductive Illegal where
  /-- R67 (a): `OPC` is 0x0 or one of 0x7..0xF. -/
  | reservedOpcode
  /-- R67 (b): `RSV ≠ 0`. -/
  | reservedBits
  /-- R67 (c): SETUP with `B[15:8] ≠ 0`. -/
  | setupMustBeZero
  /-- R67 (d): APPEND with `A ≠ 0`. -/
  | appendMustBeZero
  /-- R67 (e): COMPRESS with `A ≠ 0` or `B[15:1] ≠ 0`. -/
  | compressMustBeZero
  /-- R67 (f): FINALIZE, SETCTR or STATUS with `A ≠ 0` or `B ≠ 0`. -/
  | noOperandMustBeZero
  deriving DecidableEq, Repr

/-- What a header says: a command with its header operands, or illegal (R68). -/
inductive HeaderForm where
  | setup (nn kk : Byte)
  | append (len : BitVec 16)
  | finalize
  | compress (last : Bool)
  | setctr
  | status
  | illegal (why : Illegal)
  deriving DecidableEq, Repr

/-- The decoder of R68, on the header word. -/
def decodeHeader (hdr : Header) : HeaderForm :=
  if hdrRsv hdr ≠ 0 then .illegal .reservedBits
  else
    match (hdrOpc hdr).toNat with
    | 1 => if hdrBHigh hdr = 0 then .setup (hdrA hdr) (hdrBLow hdr) else .illegal .setupMustBeZero
    | 2 => if hdrA hdr = 0 then .append (hdrB hdr) else .illegal .appendMustBeZero
    | 3 => if hdrA hdr = 0 ∧ hdrB hdr = 0 then .finalize else .illegal .noOperandMustBeZero
    | 4 => if hdrA hdr = 0 ∧ hdrBUpper hdr = 0 then .compress (hdrLast hdr) else .illegal .compressMustBeZero
    | 5 => if hdrA hdr = 0 ∧ hdrB hdr = 0 then .setctr else .illegal .noOperandMustBeZero
    | 6 => if hdrA hdr = 0 ∧ hdrB hdr = 0 then .status else .illegal .noOperandMustBeZero
    | _ => .illegal .reservedOpcode

/-- What the bytes of one command say: a command, an illegal header with its payload (answered BADCMD, R141), or
bytes that are not one header with exactly its payload (R74). -/
inductive Decoded where
  | instr (i : Instr)
  | illegal (why : Illegal)
  | illFramed
  deriving DecidableEq, Repr

/-- The operands of the payload, at the offsets of R63 and R65; the payload of an illegal header is discarded
(R141). -/
def decodePayload (form : HeaderForm) (payload : List Byte) : Decoded :=
  match form with
  | .setup nn kk => .instr (.setup nn kk (padTo 64 payload))
  | .append _ => .instr (.append payload)
  | .finalize => .instr .finalize
  | .compress last =>
    .instr (.compress (le64Words 8 payload 0) (padTo 128 (payload.drop 64)) (le64 payload 24) (le64 payload 25) last)
  | .setctr => .instr (.setctr (le64 payload 0) (le64 payload 1))
  | .status => .instr .status
  | .illegal why => .illegal why

/-- The decoder, total on any bytes: the header first, as 4 bytes in little-endian order (R60), then exactly the
payload that R63 gives for it (R73, R74). -/
def decode : List Byte → Decoded
  | b0 :: b1 :: b2 :: b3 :: payload =>
    if payload.length = payloadLength (le32 b0 b1 b2 b3) then
      decodePayload (decodeHeader (le32 b0 b1 b2 b3)) payload
    else .illFramed
  | _ => .illFramed

/-- A byte-serial transport cut at the end of its first command: the total length of a command is known once its
4 header bytes have been read (R69). `none` while the first command is not complete. -/
def cutCommand (stream : List Byte) : Option (List Byte × List Byte) :=
  match stream with
  | b0 :: b1 :: b2 :: b3 :: rest =>
    let n := payloadLength (le32 b0 b1 b2 b3)
    if n ≤ rest.length then some (b0 :: b1 :: b2 :: b3 :: rest.take n, rest.drop n) else none
  | _ => none

/-- The header of a command (R66, R70). -/
def encodeHeader : Instr → Header
  | .setup nn kk _ => 0x10000000 ||| (nn.setWidth 32 <<< 16) ||| kk.setWidth 32
  | .append data => 0x20000000 ||| (BitVec.ofNat 16 data.length).setWidth 32
  | .finalize => 0x30000000
  | .compress _ _ _ _ last => 0x40000000 ||| (BitVec.ofBool last).setWidth 32
  | .setctr _ _ => 0x50000000
  | .status => 0x60000000

/-- The payload of a command, laid out as R63 says. -/
def encodePayload : Instr → List Byte
  | .setup _ _ key => key.toList
  | .append data => data
  | .finalize => []
  | .compress h block t0 t1 _ => leBytes h ++ block.toList ++ leBytes64 t0 ++ leBytes64 t1
  | .setctr t0 t1 => leBytes64 t0 ++ leBytes64 t1
  | .status => []

/-- The bytes of a command on the wire: its header in little-endian order, then its payload (R60). -/
def encode (i : Instr) : List Byte :=
  leBytes32 (encodeHeader i) ++ encodePayload i

/-- The names of the opcode map's rows (R66). -/
inductive Mnemonic where
  | setup | append | finalize | compress | setctr | status
  deriving DecidableEq, Repr

/-- One row of the opcode map: a header `hdr` matches it when `hdr &&& mask = pattern` (R66). -/
structure OpcodeRow where
  mnemonic : Mnemonic
  pattern : Header
  mask : Header
  deriving DecidableEq, Repr

/-- "Match and mask per command" (R66). The decoder is R68's; this table is what it is held against. -/
def opcodeTable : List OpcodeRow :=
  [⟨.setup, 0x10000000, 0xFF00FF00⟩, ⟨.append, 0x20000000, 0xFFFF0000⟩, ⟨.finalize, 0x30000000, 0xFFFFFFFF⟩,
   ⟨.compress, 0x40000000, 0xFFFFFFFE⟩, ⟨.setctr, 0x50000000, 0xFFFFFFFF⟩, ⟨.status, 0x60000000, 0xFFFFFFFF⟩]

/-- The row a decoded header belongs to; none when it is illegal. -/
def HeaderForm.mnemonic : HeaderForm → Option Mnemonic
  | .setup _ _ => some .setup
  | .append _ => some .append
  | .finalize => some .finalize
  | .compress _ => some .compress
  | .setctr => some .setctr
  | .status => some .status
  | .illegal _ => none

/-- The wire bytes of a command given as one number `w` of `nbits` bits, bit 0 the least significant bit of the
header: the header's 4 bytes, then the payload bytes the header calls for, every bit from `nbits` on zero. -/
def tableWordBytes (nbits w : Nat) : List Byte :=
  (List.range (4 + payloadLength (BitVec.ofNat 32 (w % 2 ^ nbits)))).map fun i =>
    BitVec.ofNat 8 ((w % 2 ^ nbits) >>> (8 * i))

/-- The command the decoder reads from such a number; none where it refuses. -/
def decodeTableWord (nbits w : Nat) : Option Instr :=
  match decode (tableWordBytes nbits w) with
  | .instr i => some i
  | .illegal _ => none
  | .illFramed => none

end Sys2Proof
end

