-- ==== Sys2Proof/Machine/State.lean ====
section
/-!
DEFINITION. The state of one core: every register of 10_state.md R20, and the host interface of 30_encoding.md
R73 (what the host has sent and the core has not yet performed, and what the core has answered). Plain data.
-/

namespace Sys2Proof.Machine

/-- `PHASE`, the state machine of R26. The 2-bit encoding 3 is never held (R26), so it has no name here
(DEDUCED, safe: log entry 3). -/
inductive Phase where
  /-- Encoded 0 (R20): no SETUP has succeeded since reset, or the last one failed (R145). -/
  | unconfigured
  /-- Encoded 1 (R20): a computation is in progress. -/
  | ready
  /-- Encoded 2 (R20): the digest has been returned. -/
  | finalized
  deriving DecidableEq, Repr

/-- The response codes of R64. Codes 4..255 are never sent, so they have no name (DEDUCED, safe: log entry 3). -/
inductive RespCode where
  /-- Code 0: the command was performed. -/
  | ok
  /-- Code 1: SETUP operands out of range (R140). -/
  | configError
  /-- Code 2: the command is not allowed in the current phase (R140). -/
  | misuse
  /-- Code 3: illegal header (R141). -/
  | badCmd
  deriving DecidableEq, Repr

/-- A response: a response code followed by a response payload (R64). -/
structure Response where
  code : RespCode
  payload : List Byte
  deriving DecidableEq, Repr

/-- What the host may do to the core (R73). -/
inductive HostEvent where
  /-- One command: its header in 4 little-endian bytes and then its payload (R60). The bytes are the host's and
  may be any: the core's decoder says whether they are one command (DESIGN CHOICE, safe: log entry 5). -/
  | command (bytes : List Byte)
  /-- Assertion of the reset input (R160), a step taken between commands (R161; DEDUCED, safe:
  log entry 7). -/
  | reset
  deriving DecidableEq, Repr

/-- Faults. The spec gives the core no fault: every error of a command is a response, after which the core goes
on (R140 to R148), so `exec` and `step` never answer with one. Two names are those of R155, under which a claim about
digests treats a run that received MISUSE or BADCMD: `Sys2Proof.contractStep` (Safety.lean), the step as such claims
see it, raises them and nothing else does (DESIGN CHOICE, safe: log entry 8). The other two end a run of the host's
pseudo-command HASH (93_implementation_defined.md U10); `hostHash` (Pseudo.lean) raises them and nothing else does. -/
inductive Fault where
  /-- Raised by `contractStep` when the step's response is MISUSE (R155). Safe: a claim then says nothing. -/
  | misuse
  /-- Raised by `contractStep` when the step's response is BADCMD (R155). Safe: a claim then says nothing. -/
  | badCmd
  /-- Raised by `hostHash` when its SETUP is answered CONFIG_ERROR: the host stops and reports that error (R72, U10).
  The core goes on from the state SETUP left. Safe: the spec gives this outcome. -/
  | hashConfigError
  /-- Raised by `hostHash` when no header encodes the key's length: 256 bytes or more, where `KK` has 8 bits (R65).
  Nothing is sent. Safe: the run stops where the spec gives HASH no SETUP (DESIGN CHOICE: log entry 12). -/
  | hashKeyUnencodable
  deriving DecidableEq, Repr

/-- Refusals. -/
inductive Refusal where
  /-- Raised by an arm of `exec` whose instruction has no meaning yet; no arm does. Safe. -/
  | notModelled (mnemonic : String)
  /-- Raised by `step` when the host's bytes are not one header with exactly the payload its length calls for.
  R74: "A model admits only well-framed command sequences, and refuses any other." Safe (log entry 13). -/
  | illFramed
  deriving DecidableEq, Repr

/-- The architectural state of one core (R20, "and nothing else"), then the host interface (R73), then one field of
the model's own. -/
structure State where
  /-- `H[0..7]`, the hash state (R21). -/
  h : HashState
  /-- `T0`, the counter's low word (R22). -/
  t0 : Word
  /-- `T1`, the counter's high word (R22). -/
  t1 : Word
  /-- `B[0..127]`, the staging buffer (R23). -/
  b : Block
  /-- `C`, the fill length: "a u8, value 0..128" whose values 129..255 are never held (R20, R24), so its type holds
  exactly 0..128 (DEDUCED, safe: log entry 3). -/
  c : Fin 129
  /-- `NN`, the configured digest length in bytes (R25). -/
  nn : Byte
  /-- `KK`, the configured key length in bytes (R25). -/
  kk : Byte
  /-- `PHASE` (R26). -/
  phase : Phase
  /-- `MISUSE_SEEN`, sticky (R27). -/
  misuseSeen : Bool
  /-- `CONFIG_SEEN`, sticky (R27). -/
  configSeen : Bool
  /-- `BADCMD_SEEN`, sticky (R27). -/
  badcmdSeen : Bool
  /-- What the host has sent and the core has not yet performed, in issue order: the core holds it and performs
  nothing early (R48, R163; DESIGN CHOICE, safe: log entry 5). -/
  inbox : List HostEvent
  /-- The responses sent so far, oldest first (R64, R169). -/
  outbox : List Response
  /-- The model's own, not the spec's: how many times the reset input was asserted, which numbers the free values
  that `H`, `T0`, `T1` and `B` then hold (Config.lean; log entry 2). -/
  freeDraws : Nat
  deriving DecidableEq, Repr

/-- The machine right after reset (R35, R160): `PHASE`, the sticky flags, `C`, `NN` and `KK` as the spec says.
R35 leaves `H`, `T0`, `T1` and `B` unspecified; zero is a DESIGN CHOICE (log entry 1, unsafe), and no statement
rests on it. The host has sent nothing and nothing has been answered. -/
def State.reset : State where
  h := Vector.replicate 8 0
  t0 := 0
  t1 := 0
  b := Vector.replicate 128 0
  c := 0
  nn := 0
  kk := 0
  phase := .unconfigured
  misuseSeen := false
  configSeen := false
  badcmdSeen := false
  inbox := []
  outbox := []
  freeDraws := 0

end Sys2Proof.Machine
end

