-- ==== Sys2Proof/Machine/Flags.lean ====
section
/-!
DEFINITION. The flags of the core. There are no condition codes and no arithmetic flags (10_state.md R30): the
flags are the three sticky error flags (R27, R144), and STATUS is a read-only 32-bit view of them and of the
control registers (R28).
-/

namespace Sys2Proof.Machine

/-- The 2-bit encoding of `PHASE` (R20). -/
def phaseCode : Phase → BitVec 2
  | .unconfigured => 0
  | .ready => 1
  | .finalized => 2

/-- The u8 a response code is sent as (R64). -/
def respCodeByte : RespCode → Byte
  | .ok => 0
  | .configError => 1
  | .misuse => 2
  | .badCmd => 3

/-- The bytes of a response: its code, then its payload (R64). -/
def responseBytes (r : Response) : List Byte :=
  respCodeByte r.code :: r.payload

/-- A response of code CONFIG_ERROR, MISUSE or BADCMD sets its sticky flag to 1 (R27, R144); OK sets none. -/
def setSticky (code : RespCode) (s : State) : State :=
  match code with
  | .ok => s
  | .configError => { s with configSeen := true }
  | .misuse => { s with misuseSeen := true }
  | .badCmd => { s with badcmdSeen := true }

/-- `STATUS = PHASE | MISUSE_SEEN << 2 | CONFIG_SEEN << 3 | BADCMD_SEEN << 4 | C << 8 | NN << 16 | KK << 24`
(R28, R130). Bits [7:5] are hardwired to 0. -/
def statusWord (s : State) : Header :=
  (phaseCode s.phase).setWidth 32 ||| ((BitVec.ofBool s.misuseSeen).setWidth 32 <<< 2) |||
    ((BitVec.ofBool s.configSeen).setWidth 32 <<< 3) ||| ((BitVec.ofBool s.badcmdSeen).setWidth 32 <<< 4) |||
    (BitVec.ofNat 32 s.c.val <<< 8) ||| (s.nn.setWidth 32 <<< 16) ||| (s.kk.setWidth 32 <<< 24)

end Sys2Proof.Machine
end

