-- ==== Sys2Proof/Machine/Mixing.lean ====
section
/-!
DEFINITION. The compression function of 40_compression.md (R80 to R86): a pure function of a hash state, a block, a
counter and a last-block flag. It reads no state of the core (R86 f). IV and SIGMA are constants, not state (R31).
-/

namespace Sys2Proof.Machine

/-- The working array `V[0..15]` and the message words `M[0..15]`: transient, never kept (R32). -/
abbrev Work := Vector Word 16

/-- IV (R80). PRESUMED by the spec, from general knowledge (unsafe: log entry 9). -/
def iv : HashState :=
  #v[0x6a09e667f3bcc908, 0xbb67ae8584caa73b, 0x3c6ef372fe94f82b, 0xa54ff53a5f1d36f1,
     0x510e527fade682d1, 0x9b05688c2b3e6c1f, 0x1f83d9abfb41bd6b, 0x5be0cd19137e2179]

/-- SIGMA, the 10×16 mixing permutation table (R81; row 9 as 90_conflicts.md C14 settles it). PRESUMED by
the spec, from general knowledge (unsafe: log entry 9). -/
def sigma : Vector (Vector (Fin 16) 16) 10 :=
  #v[#v[0, 1, 2, 3, 4, 5, 6, 7, 8, 9, 10, 11, 12, 13, 14, 15],
     #v[14, 10, 4, 8, 9, 15, 13, 6, 1, 12, 0, 2, 11, 7, 5, 3],
     #v[11, 8, 12, 0, 5, 2, 15, 13, 10, 14, 3, 6, 7, 1, 9, 4],
     #v[7, 9, 3, 1, 13, 12, 11, 14, 2, 6, 5, 10, 4, 0, 15, 8],
     #v[9, 0, 5, 7, 2, 4, 10, 15, 14, 1, 11, 12, 6, 8, 3, 13],
     #v[2, 12, 6, 10, 0, 11, 8, 3, 4, 13, 7, 5, 15, 14, 1, 9],
     #v[12, 5, 1, 15, 14, 13, 4, 10, 0, 7, 6, 3, 9, 2, 8, 11],
     #v[13, 11, 7, 14, 12, 1, 3, 9, 5, 0, 15, 4, 8, 6, 2, 10],
     #v[6, 15, 14, 9, 11, 3, 0, 8, 12, 2, 13, 7, 1, 4, 10, 5],
     #v[10, 2, 8, 4, 7, 6, 1, 5, 15, 11, 9, 14, 3, 12, 13, 0]]

/-- `rotr64(x, n) = (x >> n) | (x << (64 - n))`, for 0 < n < 64 (R82). -/
def rotr64 (x : Word) (n : Nat) : Word :=
  (x >>> n) ||| (x <<< (64 - n))

/-- The mixing operation `G(V, a, b, c, d, x, y)`: eight steps, each reading what the step before wrote (R83). -/
def mixG (v : Work) (a b c d : Fin 16) (x y : Word) : Work :=
  let v := v.set a (v[a] + v[b] + x)
  let v := v.set d (rotr64 (v[d] ^^^ v[a]) 32)
  let v := v.set c (v[c] + v[d])
  let v := v.set b (rotr64 (v[b] ^^^ v[c]) 24)
  let v := v.set a (v[a] + v[b] + y)
  let v := v.set d (rotr64 (v[d] ^^^ v[a]) 16)
  let v := v.set c (v[c] + v[d])
  v.set b (rotr64 (v[b] ^^^ v[c]) 63)

/-- `ROUND(V, M, s)`: the column step, then the diagonal step (R84). -/
def mixRound (v m : Work) (s : Vector (Fin 16) 16) : Work :=
  let v := mixG v 0 4 8 12 m[s[0]] m[s[1]]
  let v := mixG v 1 5 9 13 m[s[2]] m[s[3]]
  let v := mixG v 2 6 10 14 m[s[4]] m[s[5]]
  let v := mixG v 3 7 11 15 m[s[6]] m[s[7]]
  let v := mixG v 0 5 10 15 m[s[8]] m[s[9]]
  let v := mixG v 1 6 11 12 m[s[10]] m[s[11]]
  let v := mixG v 2 7 8 13 m[s[12]] m[s[13]]
  mixG v 3 4 9 14 m[s[14]] m[s[15]]

/-- The row of SIGMA that round `r` uses: `r mod 10` (R81). -/
def sigmaRow (r : Nat) : Vector (Fin 16) 16 :=
  sigma[r % 10]'(Nat.mod_lt r (by decide))

/-- Steps 1 to 3 of `compress`: the working array before the first round (R85). -/
def initWork (h : HashState) (t : Counter) (last : Bool) : Work :=
  let v : Work := h ++ iv
  let v := v.set 12 (v[12] ^^^ t.extractLsb' 0 64)
  let v := v.set 13 (v[13] ^^^ t.extractLsb' 64 64)
  if last then v.set 14 (~~~v[14]) else v

/-- Step 4 of `compress`: `M[k] = le64(block, k)` (R41 a, R85). -/
def messageWords (block : Block) : Work :=
  le64Words 16 block.toList 0

/-- Step 5 of `compress`: the 12 rounds (R85, R86 b). -/
def mixRounds (v m : Work) : Work :=
  (List.range 12).foldl (fun v r => mixRound v m (sigmaRow r)) v

/-- Step 6 of `compress`: `h'[i] = h[i] ^ V[i] ^ V[i+8]` (R85). -/
def foldWork (h : HashState) (v : Work) : HashState :=
  Vector.ofFn fun i => h[i] ^^^ v[i.val] ^^^ v[i.val + 8]

/-- `compress(h, block, t, last)` (R85): total, every input gives a result (R86 a). -/
@[irreducible] def compress (h : HashState) (block : Block) (t : Counter) (last : Bool) : HashState :=
  foldWork h (mixRounds (initWork h t last) (messageWords block))

end Sys2Proof.Machine
end

