-- ==== Sys2Proof/Machine/Ops.lean ====
section
/-!
DEFINITION. The named operations over the core's registers. The core has no addressable memory (20_memory.md R40),
so the operations are those on the hash state, the counter, the staging buffer, the phase and the responses. An
error is the core's exception: `raise` is taking it (R143, R144), and there is nothing to return from (R148).
-/

namespace Sys2Proof.Machine

/-- `respond(code, bytes)`: ends the command with that response (R11, R64). -/
def respond (code : RespCode) (payload : List Byte) (s : State) : State :=
  { s with outbox := s.outbox ++ [⟨code, payload⟩] }

/-- `raise E`: ends the command with response code `E` and no payload, and sets the sticky flag of `E`; nothing else
changes (R11, R143, R144). -/
def raise (code : RespCode) (s : State) : State :=
  respond code [] (setSticky code s)

/-- `PHASE <- p` (R26). -/
def setPhase (p : Phase) (s : State) : State :=
  { s with phase := p }

/-- The phase check of R142, which APPEND, FINALIZE and SETCTR make before anything else: in `Ready` the command is
performed by `perform`; in any other phase it is answered MISUSE and nothing is done (R140, R143). -/
def whenReady (perform : State → State) (s : State) : Host.Outcome State Fault Refusal :=
  if s.phase = .ready then .next (perform s) else .next (raise .misuse s)

/-- The counter `T = T1 · 2^64 + T0` as one 128-bit value (R22). -/
def counter (s : State) : Counter :=
  s.t1 ++ s.t0

/-- `ctr_add(n)` (R102): the carry test is "new low value is less than the amount added". -/
def ctrAdd (n : Word) (s : State) : State :=
  { s with t0 := s.t0 + n, t1 := if s.t0 + n < n then s.t1 + 1 else s.t1 }

/-- `H <- compress(H, B[0..127], T1 << 64 | T0, last)` (R105, R107). -/
def compressBuffer (last : Bool) (s : State) : State :=
  { s with h := compress s.h s.b (counter s) last }

/-- The deferred compression of a full buffer: count its 128 bytes, compress it as no last block, empty it (R105). -/
def flushBuffer (s : State) : State :=
  { compressBuffer false (ctrAdd 128 s) with c := 0 }

/-- `B[C] <- x; C <- C + 1` (R105), done only with `C < 128`. -/
def placeByte (x : Byte) (s : State) : State :=
  { s with b := s.b.setIfInBounds s.c.val x, c := s.c + 1 }

/-- `append_byte(x)` (R105): the buffer is compressed only when a byte arrives and finds it full. -/
def appendByte (x : Byte) (s : State) : State :=
  placeByte x (if s.c = 128 then flushBuffer s else s)

/-- `for j in 0..LEN-1: append_byte(data[j])` (R106). -/
def appendBytes (data : List Byte) (s : State) : State :=
  data.foldl (fun s x => appendByte x s) s

/-- `for i in C..127: B[i] <- 0; C <- 128` (R107): the first `C` bytes followed by zero bytes. -/
def zeroFill (s : State) : State :=
  { s with b := padTo 128 (s.b.toList.take s.c.val), c := 128 }

/-- The parameter word `P(NN, KK) = 0x01010000 ^ (KK << 8) ^ NN` (R100). -/
def paramWord (nn kk : Byte) : Word :=
  0x01010000 ^^^ (kk.setWidth 64 <<< 8) ^^^ nn.setWidth 64

/-- The initial hash state: `IV[0] ^ P(NN, KK)`, and `IV[i]` for i = 1..7 (R101). -/
def initHash (nn kk : Byte) : HashState :=
  iv.set 0 (iv[0] ^^^ paramWord nn kk)

/-- SETUP's operand check: 1 ≤ NN ≤ 64 and KK ≤ 64 (R103, R140). -/
def configValid (nn kk : Byte) : Bool :=
  1 ≤ nn.toNat ∧ nn.toNat ≤ 64 ∧ kk.toNat ≤ 64

/-- SETUP's configuration and initialisation: `H`, `T0`, `T1`, `NN` and `KK` (R103). -/
def startHash (nn kk : Byte) (s : State) : State :=
  { s with h := initHash nn kk, t0 := 0, t1 := 0, nn := nn, kk := kk }

/-- SETUP's staging buffer: with a key, `B = key[0..KK-1] ++ zeros(128 - KK)` and `C = 128`; without one, `C = 0` and
`B` keeps its old contents (R103). -/
def loadKey (kk : Byte) (key : Vector Byte 64) (s : State) : State :=
  if 0 < kk.toNat then { s with b := padTo 128 (key.toList.take kk.toNat), c := 128 }
  else { s with c := 0 }

/-- The digest: `take(NN, le_bytes(H[0..7]))` (R108). -/
def digest (s : State) : List Byte :=
  (leBytes s.h).take s.nn.toNat

/-- Assertion of the reset input (R160): `PHASE`, the sticky flags, `C`, `NN` and `KK` take their reset values; `H`,
`T0`, `T1` and `B` become unspecified, each a free value (log entry 2). Reset sends no response. The free values are
numbered by `freeDraws` alone and not by the core, so two cores of a platform with equal counters are given the same
ones (DESIGN CHOICE, unsafe: log entry 14). -/
def applyReset (s : State) : State :=
  { s with
    h := Vector.ofFn fun i => Config.resetWord s.freeDraws i.val
    t0 := Config.resetWord s.freeDraws 8
    t1 := Config.resetWord s.freeDraws 9
    b := Vector.ofFn fun i => Config.resetByte s.freeDraws i.val
    c := 0
    nn := 0
    kk := 0
    phase := .unconfigured
    misuseSeen := false
    configSeen := false
    badcmdSeen := false
    freeDraws := s.freeDraws + 1 }

/-- The host sends one more command behind what it has sent already: the core holds it and performs nothing early
(R48, R163). An assertion of reset is put behind every command that is held, too: the spec speaks only of the command
in progress (R161) and not of held ones, and this order is the model's (DESIGN CHOICE, unsafe: log entry 15). -/
def deliver (e : HostEvent) (s : State) : State :=
  { s with inbox := s.inbox ++ [e] }

/-- The core takes the first of what the host has sent (R48): that event, and the state without it. -/
def receive (s : State) : Option (HostEvent × State) :=
  match s.inbox with
  | [] => none
  | e :: rest => some (e, { s with inbox := rest })

/-- A command's bytes that decode to no command: an illegal header is answered BADCMD, its payload discarded
(R141); bytes that are not one header with exactly its payload are refused (R74). `run` performs a command. -/
def performDecoded (run : Instr → State → Host.Outcome State Fault Refusal) (d : Decoded) (s : State) :
    Host.Outcome State Fault Refusal :=
  match d with
  | .instr i => run i s
  | .illegal _ => .next (raise .badCmd s)
  | .illFramed => .refused .illFramed

/-- One event of the host, performed: a command is decoded and run (R142, check 1 first), a reset is applied. -/
def performEvent (run : Instr → State → Host.Outcome State Fault Refusal) (e : HostEvent) (s : State) :
    Host.Outcome State Fault Refusal :=
  match e with
  | .command bytes => performDecoded run (decode bytes) s
  | .reset => .next (applyReset s)

/-- The host sends the command whose wire bytes are `bytes` so that it is the next one the core performs. -/
def deliverFirst (bytes : List Byte) (s : State) : State :=
  { s with inbox := .command bytes :: s.inbox }

end Sys2Proof.Machine
end

