-- ==== Sys2Proof/Machine/Compression.lean ====
section
/-!
DEFINITION. The compression family: COMPRESS (40_compression.md R87).
-/

namespace Sys2Proof.Machine

/-- COMPRESS (R87): the compression function on explicit operands. Valid in every phase; no register changes. -/
def execCompress (h : HashState) (block : Block) (t0 t1 : Word) (last : Bool) (s : State) :
    Host.Outcome State Fault Refusal :=
  .next (respond .ok (leBytes (compress h block (t1 ++ t0) last)) s)

end Sys2Proof.Machine
end

