-- ==== Sys2Proof/Machine/Control.lean ====
section
/-!
DEFINITION. The control and debug commands: STATUS and SETCTR (42_control.md R130, R131).
-/

namespace Sys2Proof.Machine

/-- STATUS (R130): the STATUS word, 4 bytes, least significant first. Valid in every phase; no register changes. -/
def execStatus (s : State) : Host.Outcome State Fault Refusal :=
  .next (respond .ok (leBytes32 (statusWord s)) s)

/-- SETCTR (R131): MISUSE outside `Ready`; otherwise the counter words are overwritten, and nothing else. -/
def execSetctr (t0 t1 : Word) (s : State) : Host.Outcome State Fault Refusal :=
  whenReady (fun s => respond .ok [] { s with t0 := t0, t1 := t1 }) s

end Sys2Proof.Machine
end

