-- ==== Sys2Proof/Machine/Hasher.lean ====
section
/-!
DEFINITION. The incremental hasher: SETUP, APPEND and FINALIZE (41_hasher.md R103, R106, R107). The checks of R142
come before any change of state (R143).
-/

namespace Sys2Proof.Machine

/-- SETUP (R103): accepted in every phase. Operands out of range are answered CONFIG_ERROR and leave
`Unconfigured` (R140, R145); otherwise a new computation starts. -/
def execSetup (nn kk : Byte) (key : Vector Byte 64) (s : State) : Host.Outcome State Fault Refusal :=
  if configValid nn kk then
    .next (respond .ok [] (setPhase .ready (loadKey kk key (startHash nn kk s))))
  else .next (raise .configError (setPhase .unconfigured s))

/-- APPEND (R106): MISUSE outside `Ready`; otherwise each byte in order, and OK. -/
def execAppend (data : List Byte) (s : State) : Host.Outcome State Fault Refusal :=
  whenReady (fun s => respond .ok [] (appendBytes data s)) s

/-- FINALIZE's last compression: count the staged bytes, fill up with zeros, compress as the last block (R107). -/
def finishHash (s : State) : State :=
  setPhase .finalized (compressBuffer true (zeroFill (ctrAdd (BitVec.ofNat 64 s.c.val) s)))

/-- FINALIZE (R107): MISUSE outside `Ready`; otherwise the last compression, and the digest (R108). -/
def execFinalize (s : State) : Host.Outcome State Fault Refusal :=
  whenReady (fun s => respond .ok (digest (finishHash s)) (finishHash s)) s

end Sys2Proof.Machine
end

