-- ==== Sys2Proof/Machine/Dispatch.lean ====
section
/-!
DEFINITION. One arm for each command: one direct call of its meaning.
-/

namespace Sys2Proof.Machine

def exec (i : Instr) (s : State) : Host.Outcome State Fault Refusal :=
  match i with
  | .setup nn kk key => Sys2Proof.Machine.execSetup nn kk key s
  | .append data => Sys2Proof.Machine.execAppend data s
  | .finalize => Sys2Proof.Machine.execFinalize s
  | .compress h block t0 t1 last => Sys2Proof.Machine.execCompress h block t0 t1 last s
  | .setctr t0 t1 => Sys2Proof.Machine.execSetctr t0 t1 s
  | .status => Sys2Proof.Machine.execStatus s

end Sys2Proof.Machine
end

