-- ==== Sys2Proof/Machine/Step.lean ====
section
/-!
DEFINITION. One step of the core: the first of what the host has sent is performed, whole, before the next
(20_memory.md R44, R48). The core has no program counter and fetches nothing (R29, R52): its next instruction is the
first command that waits in the inbox. With nothing waiting the core does nothing (R154; DESIGN
CHOICE, safe: log entry 4).
-/

namespace Sys2Proof.Machine

def step (s : State) : Host.Outcome State Fault Refusal :=
  match receive s with
  | none => .next s
  | some (e, s') => performEvent exec e s'

/-- The state with the instruction that the number `w` of `nbits` bits gives placed first in the inbox, where `step`
takes its next one (DESIGN CHOICE, safe: log entry 6). -/
def State.withFetchWord (s : State) (nbits w : Nat) : State :=
  deliverFirst (tableWordBytes nbits w) s

end Sys2Proof.Machine
end

