-- ==== Sys2Proof/Machine/Platform.lean ====
section
/-!
DEFINITION. A platform of several cores (10_state.md R36, 20_memory.md R49, 60_exceptions.md R152): `NUM_INSTANCES`
independent cores, a number the spec leaves open, which is the list's length here (DESIGN CHOICE,
safe: log entry 11). They share no mutable state; what each holds after a reset: log entry 14.
-/

namespace Sys2Proof.Machine

/-- The cores of a platform, each with a context of its own. -/
structure Platform where
  cores : List State
  deriving DecidableEq, Repr

/-- One step of core `k`; `none` when there is no such core, or when it stops. -/
def platformStep (k : Nat) (p : Platform) : Option Platform :=
  match p.cores[k]? with
  | none => none
  | some s =>
    match step s with
    | .next s' => some ⟨p.cores.set k s'⟩
    | .fault _ => none
    | .refused _ => none

end Sys2Proof.Machine
end

