-- ==== Sys2Proof/Machine/Work.lean ====
section
/-!
DEFINITION. The work of a command, as counts of compressions and of the mixing operation G (70_reset_and_hazards.md
R168, 40_compression.md R86 b). The spec gives no time: `CMD_LATENCY` is open and no rule depends on it (DESIGN
CHOICE, safe: log entry 10).
-/

namespace Sys2Proof.Machine

/-- One call of G inside a compression: the four indices, and the indices of the two message words (R83, R84). -/
structure GCall where
  a : Fin 16
  b : Fin 16
  c : Fin 16
  d : Fin 16
  x : Fin 16
  y : Fin 16
  deriving DecidableEq, Repr

/-- The call, performed. -/
def GCall.run (m : Work) (v : Work) (g : GCall) : Work :=
  mixG v g.a g.b g.c g.d m[g.x] m[g.y]

/-- The eight calls of one round, column step and then diagonal step, with row `s` of SIGMA (R84). -/
def roundCalls (s : Vector (Fin 16) 16) : List GCall :=
  [⟨0, 4, 8, 12, s[0], s[1]⟩, ⟨1, 5, 9, 13, s[2], s[3]⟩, ⟨2, 6, 10, 14, s[4], s[5]⟩, ⟨3, 7, 11, 15, s[6], s[7]⟩,
   ⟨0, 5, 10, 15, s[8], s[9]⟩, ⟨1, 6, 11, 12, s[10], s[11]⟩, ⟨2, 7, 8, 13, s[12], s[13]⟩, ⟨3, 4, 9, 14, s[14], s[15]⟩]

/-- All calls of one compression, in order: fixed, whatever the data (R86 b, R168). -/
def compressionCalls : List GCall :=
  (List.range 12).flatMap fun r => roundCalls (sigmaRow r)

/-- How many compressions APPEND performs on these bytes: one for each byte that finds the buffer full (R105). -/
def appendCompressions : List Byte → State → Nat
  | [], _ => 0
  | x :: rest, s => (if s.c = 128 then 1 else 0) + appendCompressions rest (appendByte x s)

/-- The compressions a command performs (R168): APPEND as many as its bytes cause, FINALIZE exactly 1, COMPRESS
exactly 1, the others none; a command answered MISUSE performs none (R143). -/
def compressions (i : Instr) (s : State) : Nat :=
  match i with
  | .setup _ _ _ => 0
  | .append data => if s.phase = .ready then appendCompressions data s else 0
  | .finalize => if s.phase = .ready then 1 else 0
  | .compress _ _ _ _ _ => 1
  | .setctr _ _ => 0
  | .status => 0

/-- The work of a command in calls of G (R168). -/
def gWork (i : Instr) (s : State) : Nat :=
  compressionCalls.length * compressions i s

end Sys2Proof.Machine
end

