-- ==== Sys2Proof/Machine/Pseudo.lean ====
section
/-!
DEFINITION. What the host does with the core: command sequences in issue order (20_memory.md R48), and the host's
pseudo-commands APPENDL and HASH (30_encoding.md R71, R72). The core itself has no such commands.
-/

namespace Sys2Proof.Machine

/-- `o`, and then `k` on the state it answers; a fault or a refusal ends the sequence. -/
def andThen (o : Host.Outcome State Fault Refusal) (k : State → Host.Outcome State Fault Refusal) :
    Host.Outcome State Fault Refusal :=
  match o with
  | .next s => k s
  | .fault f => .fault f
  | .refused r => .refused r

/-- Commands performed one at a time, each on the state the one before left (R48). -/
def execAll : List Instr → State → Host.Outcome State Fault Refusal
  | [], s => .next s
  | i :: is, s => andThen (exec i s) (execAll is)

/-- A message cut into pieces of at most 65535 bytes, the last one possibly shorter; none for the empty message
(R71). The first argument bounds the number of pieces. -/
def pieces : Nat → List Byte → List (List Byte)
  | 0, _ => []
  | n + 1, bytes => if bytes = [] then [] else bytes.take 65535 :: pieces n (bytes.drop 65535)

/-- `APPENDL <bytes>` (R71). -/
def appendl (bytes : List Byte) : List Instr :=
  (pieces bytes.length bytes).map .append

/-- The code of the response sent last. -/
def lastCode (s : State) : Option RespCode :=
  s.outbox.getLast?.map Response.code

/-- The SETUP that HASH begins with, `SETUP nn, len(key), key` (R72, R70); none where the 8-bit `KK` field cannot hold
the key's length (R65; DESIGN CHOICE, safe: log entry 12). For a key of 65..255 bytes the spec does not say which 64
payload bytes it carries (R63, R70): the model sends the first 64 (DESIGN CHOICE, safe: log entry 12), and the answer,
CONFIG_ERROR, does not depend on them. -/
def hashSetup (key : List Byte) (nn : Byte) : Option Instr :=
  if key.length ≤ 255 then some (.setup nn (BitVec.ofNat 8 key.length) (padTo 64 key)) else none

/-- `HASH msg, key, nn` (R72): SETUP, then APPENDL, then FINALIZE. If SETUP is answered CONFIG_ERROR, the host stops and
reports that error (90_conflicts.md C5): a fault of the pseudo-command, while the core is in the state SETUP left
(93_implementation_defined.md U10). -/
def hostHash (msg key : List Byte) (nn : Byte) (s : State) : Host.Outcome State Fault Refusal :=
  match hashSetup key nn with
  | none => .fault .hashKeyUnencodable
  | some setup => andThen (exec setup s) fun s' =>
      if lastCode s' = some .configError then .fault .hashConfigError else execAll (appendl msg ++ [.finalize]) s'

end Sys2Proof.Machine
end

