-- ==== Sys2Proof/Safety.lean ====
section
/-!
DEFINITION. The terms the claims about the core use: the invariant of its states, what a run lets the host observe,
the contract under which a digest claim is made, and when two states cannot be told apart.
-/

namespace Sys2Proof

open Machine

/-- The invariants between commands that speak of one state (10_state.md R34 b, f). R34 (a), `0 ≤ C ≤ 128`, is the
type of `C`; (c), (d) and (e) speak of the input so far: `AbsorbedBy` in Safety/Reference.lean says them. -/
structure Inv (s : State) : Prop where
  /-- `NN` is "value 0..64" (R20). -/
  nn_le : s.nn.toNat ≤ 64
  /-- `KK` is "value 0..64" (R20). -/
  kk_le : s.kk.toNat ≤ 64
  /-- R34 (b). -/
  configured : s.phase ≠ .unconfigured → 1 ≤ s.nn.toNat
  /-- R34 (f). -/
  full_when_finalized : s.phase = .finalized → s.c = 128
  /-- R34 (f): `H` is the final state from which the digest was taken, and that digest was returned. -/
  digest_sent : s.phase = .finalized → ⟨.ok, digest s⟩ ∈ s.outbox

/-- A header that R67 calls illegal, case by case in the order (a) to (f). -/
def ReservedHeader (hdr : Header) : Prop :=
  let opc := (hdr.extractLsb' 28 4).toNat
  let rsv := hdr.extractLsb' 24 4
  let a := hdr.extractLsb' 16 8
  let b := hdr.extractLsb' 0 16
  (opc = 0 ∨ 7 ≤ opc) ∨ rsv ≠ 0 ∨ (opc = 1 ∧ hdr.extractLsb' 8 8 ≠ 0) ∨ (opc = 2 ∧ a ≠ 0) ∨
    (opc = 4 ∧ (a ≠ 0 ∨ hdr.extractLsb' 1 15 ≠ 0)) ∨ ((opc = 3 ∨ opc = 5 ∨ opc = 6) ∧ (a ≠ 0 ∨ b ≠ 0))

/-- The payload length R63 gives for a header: SETUP 64, APPEND `LEN`, COMPRESS 208, SETCTR 16, and 0 for
FINALIZE, STATUS and the reserved opcodes. -/
def owedLength (hdr : Header) : Nat :=
  let opc := (hdr.extractLsb' 28 4).toNat
  if opc = 1 then 64 else if opc = 2 then (hdr.extractLsb' 0 16).toNat else if opc = 4 then 208
  else if opc = 5 then 16 else 0

/-- The bytes are one header in little-endian order and exactly the payload its length calls for (R60, R73, R74). -/
def WellFramed (bytes : List Byte) : Prop :=
  ∃ hdr payload, bytes = leBytes32 hdr ++ payload ∧ payload.length = owedLength hdr

/-- "The observation of a run is the list of responses, one per command, plus the STATUS word at the end" (R169). -/
def observation (s : State) : List Response × Header :=
  (s.outbox, statusWord s)

/-- Two outcomes the host cannot tell apart: the same observation, or the same stop. -/
def sameObservation (o o' : Host.Outcome State Fault Refusal) : Prop :=
  match o, o' with
  | .next s, .next s' => observation s = observation s'
  | .fault f, .fault f' => f = f'
  | .refused r, .refused r' => r = r'
  | _, _ => False

/-- Two states that differ at most in what no command reads: outside `Ready`, in `H`, `T0`, `T1` and `B`; in `Ready`,
in the stale bytes `B[C..127]` (R23, R34 c, R35; 93_implementation_defined.md U2, U12). -/
structure Alike (s s' : State) : Prop where
  c : s.c = s'.c
  nn : s.nn = s'.nn
  kk : s.kk = s'.kk
  phase : s.phase = s'.phase
  misuseSeen : s.misuseSeen = s'.misuseSeen
  configSeen : s.configSeen = s'.configSeen
  badcmdSeen : s.badcmdSeen = s'.badcmdSeen
  inbox : s.inbox = s'.inbox
  outbox : s.outbox = s'.outbox
  freeDraws : s.freeDraws = s'.freeDraws
  h : s.phase = .ready → s.h = s'.h
  t : s.phase = .ready → counter s = counter s'
  staged : s.phase = .ready → s.b.toList.take s.c.val = s'.b.toList.take s.c.val

/-- Two outcomes alike: both go on in states alike, or both stop for the same reason. -/
def outcomesAlike (o o' : Host.Outcome State Fault Refusal) : Prop :=
  match o, o' with
  | .next s, .next s' => Alike s s'
  | .fault f, .fault f' => f = f'
  | .refused r, .refused r' => r = r'
  | _, _ => False

/-- "no MISUSE or BADCMD received", as the sticky flags make it checkable (60_exceptions.md R155). -/
def Clean (s : State) : Prop :=
  s.misuseSeen = false ∧ s.badcmdSeen = false

/-- The codes of the responses that a step from `s` to `s'` sent. -/
def sentCodes (s s' : State) : List RespCode :=
  (s'.outbox.drop s.outbox.length).map Response.code

/-- The step as a claim about digests treats it (R155): a MISUSE or a BADCMD response is a fault, since the run has
left the source's contract; CONFIG_ERROR is a normal outcome. The core itself goes on: see `step`. -/
def contractStep (s : State) : Host.Outcome State Fault Refusal :=
  match step s with
  | .next s' =>
    if .misuse ∈ sentCodes s s' then .fault .misuse
    else if .badCmd ∈ sentCodes s s' then .fault .badCmd
    else .next s'
  | .fault f => .fault f
  | .refused r => .refused r

/-- A core that the host has sent these commands, and nothing else, over the wire (R60). -/
def sent (cmds : List Instr) (s : State) : State :=
  { s with inbox := cmds.map fun i => .command (encode i) }

end Sys2Proof
end

