-- ==== Sys2Proof/Safety/Reference.lean ====
section
/-!
DEFINITION. A whole computation in closed form, from 41_hasher.md R109: how many compressions it takes, which block
and which counter each of them sees. The hasher's commands are held against it; it uses none of their meanings, only
the pure functions `compress`, `padTo`, `leBytes` and `initHash`.
-/

namespace Sys2Proof

open Machine

/-- The input of a computation: the key padded to one block, when there is a key, and then the message (R104). -/
def inputOf (kk : Byte) (key : Vector Byte 64) (msg : List Byte) : List Byte :=
  (if 0 < kk.toNat then (padTo 128 (key.toList.take kk.toNat)).toList else []) ++ msg

/-- `H` after the first `n` blocks of the input, none of them the last: "the i-th compression, counting from 1, sees
`T = 128·i` when it is not the last" (R109). -/
def chain (h : HashState) (input : List Byte) (n : Nat) : HashState :=
  (List.range n).foldl
    (fun h i => compress h (padTo 128 ((input.drop (128 * i)).take 128)) (BitVec.ofNat 128 (128 * (i + 1))) false) h

/-- "One computation, from SETUP to FINALIZE, performs `max(1, ceil(L' / 128))` compressions" (R109). -/
def blockCount (len : Nat) : Nat :=
  max 1 ((len + 127) / 128)

/-- `H` after the last compression, which sees `T = L' mod 2^128` and the bytes left, padded with zeros (R109). -/
def finalState (h : HashState) (input : List Byte) : HashState :=
  let n := blockCount input.length
  compress (chain h input (n - 1)) (padTo 128 (input.drop (128 * (n - 1)))) (BitVec.ofNat 128 input.length) true

/-- The digest of a message under a key: the first `NN` bytes of the final state (R108). -/
def referenceDigest (nn kk : Byte) (key : Vector Byte 64) (msg : List Byte) : List Byte :=
  (leBytes (finalState (initHash nn kk) (inputOf kk key msg))).take nn.toNat

/-- How many blocks of an input of `len` bytes have been compressed before the last one is: a full block waits for
the next byte (R33, R105). -/
def doneBlocks (len : Nat) : Nat :=
  (len - 1) / 128

/-- The state has taken in exactly this input since its SETUP, no SETCTR between (R34 c, d, e): the complete blocks
but the last are compressed and counted, and the rest is staged. -/
structure AbsorbedBy (h : HashState) (input : List Byte) (s : State) : Prop where
  phase : s.phase = .ready
  hash : s.h = chain h input (doneBlocks input.length)
  count : counter s = BitVec.ofNat 128 (128 * doneBlocks input.length)
  fill : s.c.val = input.length - 128 * doneBlocks input.length
  staged : s.b.toList.take s.c.val = input.drop (128 * doneBlocks input.length)

end Sys2Proof
end

