-- ==== Sys2Proof/Certificates/Slice0/Obligations.lean ====
section
/-!
DEFINITION. The statements about the core, for the provers. Each cites the rules of spec/ it is read from; the order
is that of the spec: encoding, one step, compression, the commands, errors, invariants, whole runs, the host.
-/

open Sys2Proof Sys2Proof.Machine

/-! ## Encoding (30_encoding.md) -/

/-- Decode and encode agree on every well-formed command, with every operand at every value (R60, R63, R65, R68). -/
def Obligations.EncodedCommandDecodesToItself : Prop :=
  ∀ i : Instr, i.WellFormed → decode (encode i) = .instr i

/-- The other direction: bytes that decode to a command are that command's encoding, no bit of them dropped, and the
command is well formed (R63, R65, R68). -/
def Obligations.DecodedCommandIsEncodedByItsBytes : Prop :=
  ∀ (bytes : List Byte) (i : Instr), decode bytes = .instr i → i.WellFormed ∧ encode i = bytes

/-- A header is illegal exactly when one of R67 (a) to (f) holds. -/
def Obligations.HeaderIsIllegalExactlyWhenReserved : Prop :=
  ∀ hdr : Header, (∃ why, decodeHeader hdr = .illegal why) ↔ ReservedHeader hdr

/-- The decoder and the table of masks agree: a header that is not reserved matches exactly one row of R66, the row
of the command it decodes to; a reserved one matches no row and decodes to illegal (R66, R68). -/
def Obligations.HeaderMatchesItsOneRowOrIsIllegal : Prop :=
  ∀ hdr : Header,
    (¬ ReservedHeader hdr ∧ ∃ row ∈ opcodeTable, hdr &&& row.mask = row.pattern ∧
      (decodeHeader hdr).mnemonic = some row.mnemonic ∧
      ∀ row' ∈ opcodeTable, hdr &&& row'.mask = row'.pattern → row' = row) ∨
    (ReservedHeader hdr ∧ (∃ why, decodeHeader hdr = .illegal why) ∧
      ∀ row ∈ opcodeTable, hdr &&& row.mask ≠ row.pattern)

/-- Words written out from the encoding vectors of 95_test_vectors.md §7 decode to the commands they stand for, or
are illegal. -/
def Obligations.SpecWordsDecode : Prop :=
  decodeHeader 0x10400000 = .setup 64 0 ∧ decodeHeader 0x10200020 = .setup 32 32 ∧
  decodeHeader 0x2000ffff = .append 65535 ∧ decodeHeader 0x30000000 = .finalize ∧
  decodeHeader 0x40000000 = .compress false ∧ decodeHeader 0x40000001 = .compress true ∧
  decodeHeader 0x50000000 = .setctr ∧ decodeHeader 0x60000000 = .status ∧
  decode [0x03, 0x00, 0x00, 0x20, 0x61, 0x62, 0x63] = .instr (.append [0x61, 0x62, 0x63]) ∧
  decode [0x00, 0x00, 0x00, 0x50, 0x80, 0xff, 0xff, 0xff, 0xff, 0xff, 0xff, 0xff, 0, 0, 0, 0, 0, 0, 0, 0] =
    .instr (.setctr 0xffffffffffffff80 0) ∧
  decode [0x00, 0x00, 0x00, 0x80] = .illegal .reservedOpcode ∧
  decode [0x00, 0x00, 0x01, 0x20] = .illegal .appendMustBeZero

/-- On a byte-serial transport the end of a command is known from its header alone, whatever follows (R60, R69). -/
def Obligations.StreamIsCutAfterItsFirstCommand : Prop :=
  ∀ bytes rest : List Byte, WellFramed bytes → cutCommand (bytes ++ rest) = some (bytes, rest)

/-- `le64(s, k)` is the sum over j = 0..7 of `s[8k+j] · 2^(8j)` (R10, R41). -/
def Obligations.LittleEndianWordIsTheSumOfItsBytes : Prop :=
  ∀ (s : List Byte) (k : Nat),
    (le64 s k).toNat = ((List.range 8).map fun j => (s.getD (8 * k + j) 0).toNat * 2 ^ (8 * j)).sum

/-! ## One step (20_memory.md R44, R48; 70_reset_and_hazards.md) -/

/-- When the first bytes the host sent decode to a command, a step is that command's meaning on the state without
those bytes; nothing else is done around it (R44, R48). That what the host sent stands in a list is the model's choice
(log entry 5). -/
def Obligations.StepRunsTheDecodedCommand : Prop :=
  ∀ (s : State) (bytes : List Byte) (rest : List HostEvent) (i : Instr),
    s.inbox = .command bytes :: rest → decode bytes = .instr i → step s = exec i { s with inbox := rest }

/-- An illegal header, with the payload its opcode owes, is answered BADCMD: the payload is consumed and discarded,
`BADCMD_SEEN` is set, and no other state changes (R141). -/
def Obligations.IllegalHeaderIsAnsweredBadcmd : Prop :=
  ∀ (s : State) (hdr : Header) (payload : List Byte) (rest : List HostEvent),
    ReservedHeader hdr → payload.length = owedLength hdr →
    s.inbox = .command (leBytes32 hdr ++ payload) :: rest →
    step s = .next { s with inbox := rest, badcmdSeen := true, outbox := s.outbox ++ [⟨.badCmd, []⟩] }

/-- No step faults: every error of a command is a response, after which the core goes on (R143, R147, R148). A step
refuses exactly the ill-framed command, and nothing else (R74). -/
def Obligations.OnlyIllFramedCommandsStopTheCore : Prop :=
  ∀ s : State,
    (∀ f, step s ≠ .fault f) ∧
    ∀ r, step s = .refused r ↔
      r = .illFramed ∧ ∃ bytes rest, s.inbox = .command bytes :: rest ∧ ¬ WellFramed bytes

/-- Every command receives exactly one response, and a response of an error carries no payload (R60, R64, R148). -/
def Obligations.EveryCommandGetsOneResponse : Prop :=
  ∀ (s s' : State) (bytes : List Byte) (rest : List HostEvent),
    s.inbox = .command bytes :: rest → step s = .next s' →
    s'.inbox = rest ∧ ∃ r, s'.outbox = s.outbox ++ [r] ∧ (r.code ≠ .ok → r.payload = [])

/-- What the host sends before the core has answered is held, and nothing is performed early: the step is the same
with it and without it (R48, R163). That it is held in a list is the model's choice (log entry 5).
Where the host asserts reset instead, that the command at the head of the list is still performed whole is the model's
choice as well: R161 leaves open whether it is abandoned, and the spec is silent on held ones (log entries 7 and 15). -/
def Obligations.EarlyCommandIsHeld : Prop :=
  ∀ (s : State) (e : HostEvent), s.inbox ≠ [] →
    (∀ s', step s = .next s' → step (deliver e s) = .next (deliver e s')) ∧
    (∀ r, step s = .refused r → step (deliver e s) = .refused r)

/-- Reset: `PHASE`, the sticky flags, `C`, `NN` and `KK` take the values of R35, STATUS reads 0, and no response is
sent. Nothing is said of `H`, `T0`, `T1` and `B`, which become unspecified (R160). -/
def Obligations.ResetAppliesTheResetValues : Prop :=
  ∀ (s : State) (rest : List HostEvent), s.inbox = .reset :: rest →
    ∃ t, step s = .next t ∧ t.phase = .unconfigured ∧ t.misuseSeen = false ∧ t.configSeen = false ∧
      t.badcmdSeen = false ∧ t.c = 0 ∧ t.nn = 0 ∧ t.kk = 0 ∧ statusWord t = 0 ∧ t.inbox = rest ∧ t.outbox = s.outbox

/-- The machine right after reset holds the values R35 gives, and its STATUS is 0x00000000. Nothing is said of the
values the model chose (log entry 1). -/
def Obligations.ResetStateHoldsTheResetValues : Prop :=
  State.reset.phase = .unconfigured ∧ State.reset.misuseSeen = false ∧ State.reset.configSeen = false ∧
  State.reset.badcmdSeen = false ∧ State.reset.c = 0 ∧ State.reset.nn = 0 ∧ State.reset.kk = 0 ∧
  statusWord State.reset = 0x00000000

/-! ## Compression (40_compression.md) -/

/-- Bit i of `rotr64(x, n)` is bit `(i + n) mod 64` of x; rotation by 63 is rotation left by 1 (R82). -/
def Obligations.RotationMovesEachBit : Prop :=
  (∀ (x : Word) (n i : Nat), 0 < n → n < 64 → i < 64 → (rotr64 x n).getLsbD i = x.getLsbD ((i + n) % 64)) ∧
  ∀ x : Word, rotr64 x 63 = x.rotateLeft 1

/-- Every row of SIGMA is a permutation of 0..15 (R81). -/
def Obligations.SigmaRowsArePermutations : Prop :=
  ∀ r : Fin 10, ∀ k : Fin 16, ∃ j : Fin 16, sigma[r][j] = k

/-- G on four distinct indices: its eight steps, each on the value the step before wrote, and no other word of V
changes (R83). -/
def Obligations.MixingOperationFollowsItsEightSteps : Prop :=
  ∀ (v : Work) (a b c d : Fin 16) (x y : Word), [a, b, c, d].Nodup →
    let a1 := v[a] + v[b] + x
    let d1 := rotr64 (v[d] ^^^ a1) 32
    let c1 := v[c] + d1
    let b1 := rotr64 (v[b] ^^^ c1) 24
    let a2 := a1 + b1 + y
    let d2 := rotr64 (d1 ^^^ a2) 16
    let c2 := c1 + d2
    let b2 := rotr64 (b1 ^^^ c2) 63
    let v' := mixG v a b c d x y
    v'[a] = a2 ∧ v'[b] = b2 ∧ v'[c] = c2 ∧ v'[d] = d2 ∧ ∀ j : Fin 16, j ∉ [a, b, c, d] → v'[j] = v[j]

/-- Two mixing operations on disjoint words can be done in either order, which is why the order within a column or
diagonal step does not change the result (R84). -/
def Obligations.DisjointMixingOperationsCommute : Prop :=
  ∀ (v : Work) (a b c d a' b' c' d' : Fin 16) (x y x' y' : Word), [a, b, c, d, a', b', c', d'].Nodup →
    mixG (mixG v a b c d x y) a' b' c' d' x' y' = mixG (mixG v a' b' c' d' x' y') a b c d x y

/-- `compress`, step by step (R85): the working array's 16 words before the first round, the 12 rounds with row
`r mod 10` of SIGMA, and `h'[i] = h[i] ^ V[i] ^ V[i+8]`. -/
def Obligations.CompressionFollowsItsSixSteps : Prop :=
  ∀ (h : HashState) (block : Block) (t : Counter) (last : Bool),
    ∃ v0 m v : Work,
      (∀ i : Fin 8, v0[i.val] = h[i]) ∧ v0[8] = iv[0] ∧ v0[9] = iv[1] ∧ v0[10] = iv[2] ∧ v0[11] = iv[3] ∧
      v0[12] = iv[4] ^^^ t.extractLsb' 0 64 ∧ v0[13] = iv[5] ^^^ t.extractLsb' 64 64 ∧
      v0[14] = (if last then ~~~iv[6] else iv[6]) ∧ v0[15] = iv[7] ∧
      (∀ k : Fin 16, m[k] = le64 block.toList k.val) ∧
      v = [0, 1, 2, 3, 4, 5, 6, 7, 8, 9, 0, 1].foldl (fun v r => mixRound v m (sigmaRow r)) v0 ∧
      ∀ i : Fin 8, (compress h block t last)[i] = h[i] ^^^ v[i.val] ^^^ v[i.val + 8]

/-- The 12 rounds are 96 calls of G on indices that are the same for every data: no input changes the number of
operations (R86 b, R168). -/
def Obligations.RoundsAreNinetySixFixedMixingOperations : Prop :=
  compressionCalls.length = 96 ∧ ∀ v m : Work, mixRounds v m = compressionCalls.foldl (GCall.run m) v

/-- The last-block flag changes only `V[14]`, by a complement; the counter's low word enters only through `V[12]`
and its high word only through `V[13]` (R86 c, d). -/
def Obligations.FlagAndCounterEnterThroughTheirOwnWords : Prop :=
  ∀ (h : HashState) (t t' : Counter) (last : Bool),
    initWork h t true = (initWork h t false).set 14 (~~~(initWork h t false)[14]) ∧
    (∀ j : Fin 16, j ≠ 12 → j ≠ 13 → (initWork h t last)[j] = (initWork h t' last)[j]) ∧
    ((initWork h t last)[12] = (initWork h t' last)[12] ↔ t.extractLsb' 0 64 = t'.extractLsb' 0 64) ∧
    ((initWork h t last)[13] = (initWork h t' last)[13] ↔ t.extractLsb' 64 64 = t'.extractLsb' 64 64)

/-- Known answers of the compression from the unkeyed 64-byte initial state, as the last block: of zeros with counter
0, the empty-message state (95_test_vectors.md §3.4, R86 e); of "abc" and zeros with counter 3 (§3.3); and of the bytes
00..7f with counter 128 (§5.1, K3), where the sixteen message words are all different, so that every entry of SIGMA and
every pairing of R84 enters the result. -/
def Obligations.EmptyMessageStateIsTheKnownAnswer : Prop :=
  compress (initHash 64 0) (Vector.replicate 128 0) 0 true =
    #v[0x03590142f7026a78, 0x72d2522585fdc6c6, 0x614758e140472f91, 0x19541ff717e2868a,
       0x5358eeaf31105ed2, 0x4bb04e9344648913, 0x55b748145b683a90, 0xcee29bfe1a706fd5] ∧
  compress (initHash 64 0) (padTo 128 [0x61, 0x62, 0x63]) 3 true =
    #v[0x0d4d1c983fa580ba, 0xe9f6129fb697276a, 0xb7c45a68142f214c, 0xd1a2ffdb6fbb124b,
       0x2d79ab2a39c5877d, 0x95cc3345ded552c2, 0x5a92f1dba88ad318, 0x239900d4ed8623b9] ∧
  compress (initHash 64 0) (Vector.ofFn fun i => BitVec.ofNat 8 i.val) 128 true =
    #v[0xdae2479c78e31923, 0xa1c2be617f80fea5, 0x32ff193fa07f53a6, 0x0e7e4bd6bfec7ee8,
       0x043b33ac39f4cf8c, 0x611ad1ddc4b0190f, 0x39a0100ffec14ae2, 0x15d1a30dcc5d6c80]

/-- COMPRESS answers OK with the 64 bytes of the compression of its operands, in every phase, and changes no
register (R87). -/
def Obligations.CompressAnswersAndChangesNoRegister : Prop :=
  ∀ (h : HashState) (block : Block) (t0 t1 : Word) (last : Bool) (s : State),
    exec (.compress h block t0 t1 last) s =
      .next { s with outbox := s.outbox ++ [⟨.ok, leBytes (compress h block (t1 ++ t0) last)⟩] }

/-! ## The hasher (41_hasher.md) -/

/-- `P(NN, KK)` for legal operands: byte 0 is NN, byte 1 is KK, bytes 2 and 3 are 1, and every bit above 31 is 0
(R100). -/
def Obligations.ParameterWordHoldsItsFourBytes : Prop :=
  ∀ nn kk : Byte, (paramWord nn kk).toNat = nn.toNat + 256 * kk.toNat + 65536 + 16777216

/-- `ctr_add(n)` is `T <- (T + n) mod 2^128`: the carry test finds every carry and no other, and nothing but `T0` and
`T1` changes (R102). -/
def Obligations.CounterAdvanceIsAdditionModulo : Prop :=
  ∀ (n : Word) (s : State),
    counter (ctrAdd n s) = counter s + n.setWidth 128 ∧
    ctrAdd n s = { s with t0 := (ctrAdd n s).t0, t1 := (ctrAdd n s).t1 }

/-- SETUP with legal operands, in every phase: `H` is IV with `P` in word 0, `T` is 0, the configuration is stored,
`PHASE` is `Ready`; with a key, `B` is the key's first `KK` bytes and zeros, whatever the payload holds past them, and
`C` is 128; without one, `C` is 0 and `B` keeps its contents. The response is OK, no flag is written (R101, R103). -/
def Obligations.SetupStartsAComputation : Prop :=
  ∀ (nn kk : Byte) (key : Vector Byte 64) (s : State),
    1 ≤ nn.toNat → nn.toNat ≤ 64 → kk.toNat ≤ 64 →
    ∃ t, exec (.setup nn kk key) s = .next t ∧
      t.h[0] = 0x6a09e667f3bcc908 ^^^ (0x01010000 ^^^ (kk.setWidth 64 <<< 8) ^^^ nn.setWidth 64) ∧
      (∀ i : Fin 8, i ≠ 0 → t.h[i] = iv[i]) ∧ t.t0 = 0 ∧ t.t1 = 0 ∧ t.nn = nn ∧ t.kk = kk ∧ t.phase = .ready ∧
      (kk = 0 → t.c = 0 ∧ t.b = s.b) ∧
      (kk ≠ 0 → t.c = 128 ∧ ∀ i : Fin 128, t.b[i] = if i.val < kk.toNat then key.toList.getD i.val 0 else 0) ∧
      t.misuseSeen = s.misuseSeen ∧ t.configSeen = s.configSeen ∧ t.badcmdSeen = s.badcmdSeen ∧
      t.inbox = s.inbox ∧ t.outbox = s.outbox ++ [⟨.ok, []⟩] ∧ t.freeDraws = s.freeDraws

/-- SETUP with `NN = 0`, `NN > 64` or `KK > 64` is answered CONFIG_ERROR, in every phase: `PHASE` becomes
`Unconfigured`, `CONFIG_SEEN` is set, and nothing else changes (R103, R140, R143, R145). -/
def Obligations.SetupOutOfRangeIsConfigError : Prop :=
  ∀ (nn kk : Byte) (key : Vector Byte 64) (s : State),
    (nn.toNat < 1 ∨ 64 < nn.toNat ∨ 64 < kk.toNat) →
    exec (.setup nn kk key) s =
      .next { s with phase := .unconfigured, configSeen := true, outbox := s.outbox ++ [⟨.configError, []⟩] }

/-- Key-block equivalence: for `KK > 0`, SETUP leaves exactly the state that zeroing the fill length, appending the
128-byte padded key and forcing the fill length to 128 leaves; that append compresses nothing and ends with
`B = key[0..KK-1] ++ zeros(128 - KK)`, `C = 128` and `T = 0`; and appending only the `KK` key bytes onto a zeroed
buffer leaves the same (R104). -/
def Obligations.KeyIsTheFirstBlockOfTheInput : Prop :=
  ∀ (nn kk : Byte) (key : Vector Byte 64) (s : State),
    1 ≤ nn.toNat → nn.toNat ≤ 64 → 1 ≤ kk.toNat → kk.toNat ≤ 64 →
    let started : State := { startHash nn kk s with c := 0, phase := .ready }
    let keyBytes := key.toList.take kk.toNat
    let appended := appendBytes (padTo 128 keyBytes).toList started
    let short := appendBytes keyBytes { started with b := Vector.replicate 128 0 }
    exec (.setup nn kk key) s = .next (respond .ok [] { appended with c := 128 }) ∧
    appended.b = padTo 128 keyBytes ∧ appended.c = 128 ∧ appended.h = started.h ∧ counter appended = 0 ∧
    { short with c := 128 } = { appended with c := 128 }

/-- A SETUP does not see the past: after it, two states that were any two states agree on everything a later command
can read but the sticky flags (R46, R103). -/
def Obligations.SetupForgetsThePast : Prop :=
  ∀ (nn kk : Byte) (key : Vector Byte 64) (s s' : State),
    1 ≤ nn.toNat → nn.toNat ≤ 64 → kk.toNat ≤ 64 →
    ∃ t t', exec (.setup nn kk key) s = .next t ∧ exec (.setup nn kk key) s' = .next t' ∧
      Alike t { t' with misuseSeen := t.misuseSeen, configSeen := t.configSeen, badcmdSeen := t.badcmdSeen,
                        inbox := t.inbox, outbox := t.outbox, freeDraws := t.freeDraws }

/-- APPEND of one byte in `Ready` is `append_byte` (R105): onto a full buffer, the counter is first advanced by 128,
the block is compressed with `is_last = 0` and that counter, and the byte becomes `B[0]` with `C = 1`; otherwise the
byte becomes `B[C]`, `C` grows by 1 and nothing is compressed. Every other byte of `B` stays. -/
def Obligations.AppendOneByteFollowsItsRule : Prop :=
  ∀ (x : Byte) (s : State), s.phase = .ready →
    ∃ t, exec (.append [x]) s = .next t ∧
      (s.c.val = 128 →
        counter t = counter s + 128 ∧ t.h = compress s.h s.b (counter s + 128) false ∧ t.c.val = 1 ∧ t.b[0] = x ∧
        ∀ j : Fin 128, j ≠ 0 → t.b[j] = s.b[j]) ∧
      (s.c.val < 128 →
        counter t = counter s ∧ t.h = s.h ∧ t.c.val = s.c.val + 1 ∧
        ∀ j : Fin 128, t.b[j] = if j.val = s.c.val then x else s.b[j]) ∧
      t = { s with h := t.h, t0 := t.t0, t1 := t.t1, b := t.b, c := t.c, outbox := s.outbox ++ [⟨.ok, []⟩] }

/-- One APPEND of n bytes, n > 0, starting at fill c performs `k = max(0, ceil((c + n - 128) / 128))` compressions and
ends with fill `c + n - 128k` and the counter 128k larger; the configuration, the phase and the flags stay (R106). -/
def Obligations.AppendFillAndCounterFollowTheCount : Prop :=
  ∀ (data : List Byte) (s : State), s.phase = .ready →
    ∃ t, exec (.append data) s = .next t ∧
      let k := (s.c.val + data.length - 128 + 127) / 128
      compressions (.append data) s = k ∧ t.c.val = s.c.val + data.length - 128 * k ∧
      counter t = counter s + BitVec.ofNat 128 (128 * k) ∧
      t = { s with h := t.h, t0 := t.t0, t1 := t.t1, b := t.b, c := t.c, outbox := s.outbox ++ [⟨.ok, []⟩] }

/-- APPEND of no bytes changes nothing: it does not compress a full buffer (R106, R164). -/
def Obligations.AppendOfNothingChangesNothing : Prop :=
  ∀ s : State, s.phase = .ready → exec (.append []) s = .next { s with outbox := s.outbox ++ [⟨.ok, []⟩] }

/-- An APPEND of n bytes onto fill c with `c + n ≤ 128` compresses nothing, a buffer that it just fills included: the
bytes are staged in message order after those that are there, and `H` and `T` stay (R33, R106, R164). -/
def Obligations.AppendWithinTheBufferOnlyStages : Prop :=
  ∀ (data : List Byte) (s : State), s.phase = .ready → s.c.val + data.length ≤ 128 →
    ∃ t, exec (.append data) s = .next t ∧ t.c.val = s.c.val + data.length ∧
      (∀ j : Fin 128, t.b[j] =
        if s.c.val ≤ j.val ∧ j.val < s.c.val + data.length then data.getD (j.val - s.c.val) 0 else s.b[j]) ∧
      t = { s with b := t.b, c := t.c, outbox := s.outbox ++ [⟨.ok, []⟩] }

/-- Streaming equivalence: any split of a message into consecutive chunks, empty ones included, leaves the same state
as one APPEND of the whole, but for the number of OK responses, and FINALIZE then answers the same (R110). -/
def Obligations.SplittingAMessageDoesNotMatter : Prop :=
  ∀ (chunks : List (List Byte)) (s : State), s.phase = .ready →
    ∃ t t', execAll (chunks.map .append) s = .next t ∧ exec (.append chunks.flatten) s = .next t' ∧
      t = { t' with outbox := s.outbox ++ List.replicate chunks.length ⟨.ok, []⟩ } ∧
      ∃ u u' r, exec .finalize t = .next u ∧ exec .finalize t' = .next u' ∧
        u.outbox = t.outbox ++ [r] ∧ u'.outbox = t'.outbox ++ [r]

/-- FINALIZE in `Ready`: the counter advances by the fill length, the rest of the buffer becomes zeros, exactly one
compression with `is_last = 1` gives `H`, `C` is 128, `PHASE` is `Finalized`, and the response is OK with the digest;
nothing else changes (R107, R108). -/
def Obligations.FinalizeCompressesTheLastBlock : Prop :=
  ∀ s : State, s.phase = .ready →
    ∃ t, exec .finalize s = .next t ∧
      counter t = counter s + BitVec.ofNat 128 s.c.val ∧
      (∀ j : Fin 128, t.b[j] = if j.val < s.c.val then s.b[j] else 0) ∧
      t.h = compress s.h t.b (counter t) true ∧ t.c.val = 128 ∧ t.phase = .finalized ∧
      t = { s with h := t.h, t0 := t.t0, t1 := t.t1, b := t.b, c := t.c, phase := t.phase,
                   outbox := s.outbox ++ [⟨.ok, (leBytes t.h).take s.nn.toNat⟩] }

/-- The digest FINALIZE returns has `NN` bytes, and byte j of it is `H[j >> 3][8·(j & 7) + 7 : 8·(j & 7)]` of the
final state (R108). -/
def Obligations.DigestBytesComeFromTheFinalState : Prop :=
  ∀ s : State, s.phase = .ready → s.nn.toNat ≤ 64 →
    ∃ t d, exec .finalize s = .next t ∧ t.outbox = s.outbox ++ [⟨.ok, d⟩] ∧ d.length = s.nn.toNat ∧
      ∀ i : Fin 8, ∀ j : Fin 8, 8 * i.val + j.val < s.nn.toNat →
        d[8 * i.val + j.val]? = some (t.h[i].extractLsb' (8 * j.val) 8)

/-! ## Control commands (42_control.md, 10_state.md) -/

/-- The STATUS word, field by field (R28). -/
def Obligations.StatusWordHoldsItsFields : Prop :=
  ∀ s : State,
    (statusWord s).extractLsb' 0 2 = phaseCode s.phase ∧ (statusWord s).getLsbD 2 = s.misuseSeen ∧
    (statusWord s).getLsbD 3 = s.configSeen ∧ (statusWord s).getLsbD 4 = s.badcmdSeen ∧
    (statusWord s).extractLsb' 5 3 = 0 ∧ (statusWord s).extractLsb' 8 8 = BitVec.ofNat 8 s.c.val ∧
    (statusWord s).extractLsb' 16 8 = s.nn ∧ (statusWord s).extractLsb' 24 8 = s.kk

/-- STATUS answers OK with the four bytes of the STATUS word, least significant first, in every phase, and changes no
register (R28, R130). -/
def Obligations.StatusAnswersItsFourBytes : Prop :=
  ∀ s : State, ∃ b0 : Byte,
    exec .status s = .next { s with outbox := s.outbox ++ [⟨.ok, [b0, BitVec.ofNat 8 s.c.val, s.nn, s.kk]⟩] } ∧
    b0.toNat = (phaseCode s.phase).toNat + 4 * s.misuseSeen.toNat + 8 * s.configSeen.toNat + 16 * s.badcmdSeen.toNat

/-- STATUS and COMPRESS have no side effect: either command again gives the same response, and no register has
changed (R46). -/
def Obligations.StatusAndCompressCanBeRepeated : Prop :=
  ∀ (s : State) (i : Instr), (i = .status ∨ ∃ h block t0 t1 last, i = .compress h block t0 t1 last) →
    ∃ r, execAll [i, i] s = .next { s with outbox := s.outbox ++ [r, r] }

/-- SETCTR in `Ready` overwrites `T0` and `T1` with any 128-bit value, and changes nothing else (R131). -/
def Obligations.SetctrOverwritesTheCounter : Prop :=
  ∀ (t0 t1 : Word) (s : State), s.phase = .ready →
    exec (.setctr t0 t1) s = .next { s with t0 := t0, t1 := t1, outbox := s.outbox ++ [⟨.ok, []⟩] }

/-- Counter injection across the 2^64 boundary: after SETCTR to 128 below it, an APPEND that compresses one block
carries into `T1` exactly once (R102, R131; 95_test_vectors.md P3). -/
def Obligations.InjectedCounterCarriesOnce : Prop :=
  ∀ (t1 : Word) (data : List Byte) (s : State), s.phase = .ready →
    s.c.val + data.length ≤ 256 → 128 < s.c.val + data.length →
    ∃ t, execAll [.setctr 0xffffffffffffff80 t1, .append data] s = .next t ∧ t.t0 = 0 ∧ t.t1 = t1 + 1

/-! ## Errors and flags (60_exceptions.md) -/

/-- APPEND, FINALIZE and SETCTR outside `Ready` are answered MISUSE: `MISUSE_SEEN` is set and nothing else changes; a
failed APPEND has appended no byte (R140, R142, R143, R165). -/
def Obligations.CommandsOutsideReadyAreMisuse : Prop :=
  ∀ (s : State) (i : Instr), s.phase ≠ .ready →
    ((∃ data, i = .append data) ∨ i = .finalize ∨ ∃ t0 t1, i = .setctr t0 t1) →
    exec i s = .next { s with misuseSeen := true, outbox := s.outbox ++ [⟨.misuse, []⟩] }

/-- An error response changes no state except its sticky flag, which becomes 1, and, for CONFIG_ERROR, `PHASE`, which
becomes `Unconfigured`: the other two flags, too, keep their values (R143, R144, R145). -/
def Obligations.ErrorsLeaveNoPartialEffect : Prop :=
  ∀ (s s' : State) (bytes : List Byte) (rest : List HostEvent) (r : Response),
    s.inbox = .command bytes :: rest → step s = .next s' → s'.outbox = s.outbox ++ [r] → r.code ≠ .ok →
    s' = { s with misuseSeen := if r.code = .misuse then true else s.misuseSeen
                  configSeen := if r.code = .configError then true else s.configSeen
                  badcmdSeen := if r.code = .badCmd then true else s.badcmdSeen
                  phase := if r.code = .configError then .unconfigured else s.phase
                  inbox := rest
                  outbox := s.outbox ++ [r] }

/-- A sticky flag is set by a response of its own code, by nothing else, and cleared only by reset (R27, R144). -/
def Obligations.StickyFlagsRecordTheErrors : Prop :=
  (∀ (s s' : State) (bytes : List Byte) (rest : List HostEvent) (r : Response),
    s.inbox = .command bytes :: rest → step s = .next s' → s'.outbox = s.outbox ++ [r] →
    s'.misuseSeen = (s.misuseSeen || r.code == .misuse) ∧
    s'.configSeen = (s.configSeen || r.code == .configError) ∧
    s'.badcmdSeen = (s.badcmdSeen || r.code == .badCmd)) ∧
  (∀ (s s' : State) (rest : List HostEvent), s.inbox = .reset :: rest → step s = .next s' →
    s'.misuseSeen = false ∧ s'.configSeen = false ∧ s'.badcmdSeen = false)

/-- The sticky flags do not stop the core: a command that reads no flag does the same to every other register, and
answers the same, whatever the flags are (R144). -/
def Obligations.StickyFlagsDoNotStopTheCore : Prop :=
  ∀ (s s' : State) (i : Instr) (m g d : Bool), i ≠ .status → exec i s = .next s' →
    ∃ m' g' d', exec i { s with misuseSeen := m, configSeen := g, badcmdSeen := d } =
      .next { s' with misuseSeen := m', configSeen := g', badcmdSeen := d' }

/-- The phase machine, every transition of R26. -/
def Obligations.PhaseFollowsItsTransitions : Prop :=
  ∀ (s s' : State) (e : HostEvent) (rest : List HostEvent), s.inbox = e :: rest → step s = .next s' →
    s'.phase =
      match e with
      | .reset => .unconfigured
      | .command bytes =>
        match decode bytes with
        | .instr (.setup nn kk _) =>
          if 1 ≤ nn.toNat ∧ nn.toNat ≤ 64 ∧ kk.toNat ≤ 64 then .ready else .unconfigured
        | .instr .finalize => if s.phase = .ready then .finalized else s.phase
        | _ => s.phase

/-- Which command writes which register (R20's column "written by", R25): only SETUP, APPEND and FINALIZE write `H`,
`B` and `C`; with SETCTR they write `T0` and `T1`; only a SETUP writes `NN` and `KK`, and only SETUP and FINALIZE write
`PHASE`; a sticky flag is written only by an error answer of its own code, `MISUSE_SEEN` never by SETUP, `CONFIG_SEEN`
only by SETUP, `BADCMD_SEEN` by no decoded command; no command touches what the host has sent after it. -/
def Obligations.CommandsWriteOnlyTheirRegisters : Prop :=
  ∀ (s s' : State) (i : Instr), exec i s = .next s' →
    s'.inbox = s.inbox ∧ s'.freeDraws = s.freeDraws ∧ s'.badcmdSeen = s.badcmdSeen ∧
    (s'.misuseSeen = s.misuseSeen ∨ s'.outbox = s.outbox ++ [⟨.misuse, []⟩]) ∧
    (s'.configSeen = s.configSeen ∨ s'.outbox = s.outbox ++ [⟨.configError, []⟩]) ∧
    match i with
    | .setup _ _ _ => s'.misuseSeen = s.misuseSeen
    | .append _ => s'.nn = s.nn ∧ s'.kk = s.kk ∧ s'.phase = s.phase ∧ s'.configSeen = s.configSeen
    | .finalize => s'.nn = s.nn ∧ s'.kk = s.kk ∧ s'.configSeen = s.configSeen
    | .setctr _ _ =>
      s'.h = s.h ∧ s'.b = s.b ∧ s'.c = s.c ∧ s'.nn = s.nn ∧ s'.kk = s.kk ∧ s'.phase = s.phase ∧
      s'.configSeen = s.configSeen
    | .compress _ _ _ _ _ | .status =>
      s'.h = s.h ∧ s'.b = s.b ∧ s'.c = s.c ∧ s'.nn = s.nn ∧ s'.kk = s.kk ∧ s'.phase = s.phase ∧
      s'.t0 = s.t0 ∧ s'.t1 = s.t1 ∧ s'.misuseSeen = s.misuseSeen ∧ s'.configSeen = s.configSeen

/-! ## Invariants (10_state.md R34) -/

/-- The state after reset meets the invariant (R34, R35). -/
def Obligations.ResetMeetsTheInvariant : Prop :=
  Inv State.reset

/-- Every step keeps the invariant: `NN` and `KK` in range, `1 ≤ NN` outside `Unconfigured`, and in `Finalized`
`C = 128` and `H` is the state whose digest has been returned (R20, R34 b, f). -/
def Obligations.EveryStepKeepsTheInvariant : Prop :=
  ∀ s s' : State, Inv s → step s = .next s' → Inv s'

/-- The invariant over the input so far (R34 c, d, e): a SETUP with legal operands leaves a state that has taken in
exactly the key block, or nothing; an APPEND onto a state that has taken in an input leaves one that has taken in that
input and the message bytes. -/
def Obligations.HasherTakesInExactlyItsInput : Prop :=
  (∀ (nn kk : Byte) (key : Vector Byte 64) (s t : State),
    1 ≤ nn.toNat → nn.toNat ≤ 64 → kk.toNat ≤ 64 → exec (.setup nn kk key) s = .next t →
    AbsorbedBy (initHash nn kk) (inputOf kk key []) t) ∧
  ∀ (h : HashState) (input data : List Byte) (s t : State),
    AbsorbedBy h input s → exec (.append data) s = .next t → AbsorbedBy h (input ++ data) t

/-! ## Whole runs -/

/-- From SETUP through any APPENDs to FINALIZE, from any state: the answers are OK, and the last one carries the
digest that R109 gives in closed form, which depends on the message, the key and `NN` alone (R108, R109, R111);
`T = L' mod 2^128` at the end. -/
def Obligations.ComputationReturnsTheReferenceDigest : Prop :=
  ∀ (nn kk : Byte) (key : Vector Byte 64) (chunks : List (List Byte)) (s : State),
    1 ≤ nn.toNat → nn.toNat ≤ 64 → kk.toNat ≤ 64 →
    ∃ t, execAll (.setup nn kk key :: (chunks.map .append ++ [.finalize])) s = .next t ∧
      t.outbox = s.outbox ++ List.replicate (chunks.length + 1) ⟨.ok, []⟩ ++
        [⟨.ok, referenceDigest nn kk key chunks.flatten⟩] ∧
      t.phase = .finalized ∧ counter t = BitVec.ofNat 128 (inputOf kk key chunks.flatten).length

/-- The edge cases the source names, as the commands perform them from every state (R112): (a) an empty unkeyed message
is one compression, in FINALIZE, of zeros with `T = 0`; (b) 128 bytes are none in APPEND and one in FINALIZE, with
`T = 128`, and 129 bytes are one in APPEND, with `T = 128`, and one in FINALIZE, with `T = 129`, of the last byte and
zeros; (c) an empty message under a key is one compression, in FINALIZE, of the padded key with `T = 128`; (d) the first
message byte under a key compresses the padded key with `T = 128`, and not as the last block. -/
def Obligations.EdgeCasesCompressAsTheirRulesSay : Prop :=
  ∀ (nn kk : Byte) (key : Vector Byte 64) (s : State), 1 ≤ nn.toNat → nn.toNat ≤ 64 → 1 ≤ kk.toNat → kk.toNat ≤ 64 →
    (∃ t u, execAll [.setup nn 0 key] s = .next t ∧ compressions .finalize t = 1 ∧
      execAll [.setup nn 0 key, .finalize] s = .next u ∧ counter u = 0 ∧
      u.h = compress (initHash nn 0) (Vector.replicate 128 0) 0 true) ∧
    (∀ m : Block, ∃ t u v, execAll [.setup nn 0 key] s = .next t ∧ compressions (.append m.toList) t = 0 ∧
      execAll [.setup nn 0 key, .append m.toList] s = .next u ∧ counter u = 0 ∧ u.h = initHash nn 0 ∧
      compressions .finalize u = 1 ∧
      execAll [.setup nn 0 key, .append m.toList, .finalize] s = .next v ∧ counter v = 128 ∧
      v.h = compress (initHash nn 0) m 128 true) ∧
    (∀ (m : Block) (x : Byte), ∃ t u v, execAll [.setup nn 0 key] s = .next t ∧
      compressions (.append (m.toList ++ [x])) t = 1 ∧
      execAll [.setup nn 0 key, .append (m.toList ++ [x])] s = .next u ∧ counter u = 128 ∧
      u.h = compress (initHash nn 0) m 128 false ∧ compressions .finalize u = 1 ∧
      execAll [.setup nn 0 key, .append (m.toList ++ [x]), .finalize] s = .next v ∧ counter v = 129 ∧
      v.h = compress (compress (initHash nn 0) m 128 false) (padTo 128 [x]) 129 true) ∧
    (∃ t u, execAll [.setup nn kk key] s = .next t ∧ compressions .finalize t = 1 ∧
      execAll [.setup nn kk key, .finalize] s = .next u ∧ counter u = 128 ∧
      u.h = compress (initHash nn kk) (padTo 128 (key.toList.take kk.toNat)) 128 true) ∧
    ∀ x : Byte, ∃ t u, execAll [.setup nn kk key] s = .next t ∧ compressions (.append [x]) t = 1 ∧
      execAll [.setup nn kk key, .append [x]] s = .next u ∧ counter u = 128 ∧
      u.h = compress (initHash nn kk) (padTo 128 (key.toList.take kk.toNat)) 128 false

/-- Commands sent over the wire are performed in issue order, one a step, each seeing what those before it left
(R44, R48). -/
def Obligations.RunPerformsCommandsInIssueOrder : Prop :=
  ∀ (cmds : List Instr) (s : State), (∀ i ∈ cmds, i.WellFormed) →
    Sys2Proof.core.run cmds.length (sent cmds s) = execAll cmds { s with inbox := [] }

/-- Two states that differ only in what no command reads stay so, and stop alike if they stop (R23, R34 c, R35). -/
def Obligations.StepKeepsStatesAlike : Prop :=
  ∀ s s' : State, Alike s s' → outcomesAlike (step s) (step s')

/-- What reset leaves unspecified is never observed: whatever `H`, `T0`, `T1` and `B` hold after reset, whatever the
host then sends, and however many steps are taken, the responses and the STATUS word are the same (R35, R169). -/
def Obligations.UnspecifiedResetValuesAreNeverObserved : Prop :=
  ∀ (h : HashState) (t0 t1 : Word) (b : Block) (sentEvents : List HostEvent) (k : Nat),
    sameObservation (Sys2Proof.core.run k { State.reset with inbox := sentEvents })
      (Sys2Proof.core.run k { State.reset with h := h, t0 := t0, t1 := t1, b := b, inbox := sentEvents })

/-- The step as digest claims see it faults exactly on a step that is answered MISUSE or BADCMD, and is the step
otherwise (R155). -/
def Obligations.ContractFaultsExactlyOnMisuseAndBadcmd : Prop :=
  ∀ s s' : State, step s = .next s' →
    (contractStep s = .fault .misuse ↔ s'.outbox = s.outbox ++ [⟨.misuse, []⟩]) ∧
    (contractStep s = .fault .badCmd ↔ s'.outbox = s.outbox ++ [⟨.badCmd, []⟩]) ∧
    (contractStep s = .next s' ↔ ∀ r, s'.outbox = s.outbox ++ [r] → r.code = .ok ∨ r.code = .configError)

/-- "no MISUSE or BADCMD received" can be checked at the end of a run: if no reset was sent and the flags are clear at
the end, then no response since the start was MISUSE or BADCMD (R155). -/
def Obligations.ClearFlagsShowACleanRun : Prop :=
  ∀ (k : Nat) (s s' : State), .reset ∉ s.inbox → Sys2Proof.core.run k s = .next s' → Clean s' →
    Clean s ∧ ∃ sentSince, s'.outbox = s.outbox ++ sentSince ∧
      ∀ r ∈ sentSince, r.code ≠ .misuse ∧ r.code ≠ .badCmd

/-! ## The host and the platform -/

/-- APPENDL: every piece is a well-formed APPEND, and the pieces leave the state that one APPEND of the whole message
would leave, but for the number of OK responses (R71, R110). -/
def Obligations.AppendlIsOneLongAppend : Prop :=
  ∀ (bytes : List Byte) (s : State), s.phase = .ready →
    (∀ i ∈ appendl bytes, i.WellFormed) ∧
    ∃ t t', execAll (appendl bytes) s = .next t ∧ exec (.append bytes) s = .next t' ∧
      t = { t' with outbox := s.outbox ++ List.replicate (appendl bytes).length ⟨.ok, []⟩ }

/-- HASH, for every key and every `NN`, returns the digest of the message when they are in range. When they are not, it
is a fault of the pseudo-command (R72, U10): where SETUP is answered CONFIG_ERROR the host stops there and reports that
error, and the core is in the state SETUP left; where no header encodes the key's length, nothing is sent (the model's
choice, log entry 12). -/
def Obligations.HashReturnsTheDigestOrReportsTheError : Prop :=
  ∀ (msg key : List Byte) (nn : Byte) (s : State),
    (1 ≤ nn.toNat ∧ nn.toNat ≤ 64 ∧ key.length ≤ 64 →
      ∃ t, hostHash msg key nn s = .next t ∧ t.outbox.getLast? =
        some ⟨.ok, referenceDigest nn (BitVec.ofNat 8 key.length) (padTo 64 key) msg⟩) ∧
    (¬ (1 ≤ nn.toNat ∧ nn.toNat ≤ 64 ∧ key.length ≤ 64) → key.length ≤ 255 →
      hostHash msg key nn s = .fault .hashConfigError ∧
      exec (.setup nn (BitVec.ofNat 8 key.length) (padTo 64 key)) s =
        .next { s with phase := .unconfigured, configSeen := true, outbox := s.outbox ++ [⟨.configError, []⟩] }) ∧
    (255 < key.length → hostHash msg key nn s = .fault .hashKeyUnencodable)

/-- Independent cores share no mutable state: steps of two different cores of a platform can be taken in either
order, and each leaves every other core as it was (R49, R152). That a platform is a list of cores is the model's
choice (log entry 11). -/
def Obligations.CoresOfAPlatformAreIndependent : Prop :=
  ∀ (p : Platform) (j k : Nat), j ≠ k →
    (platformStep j p).bind (platformStep k) = (platformStep k p).bind (platformStep j) ∧
    ∀ p', platformStep j p = some p' → p'.cores[k]? = p.cores[k]?
end

