-- ==== Sys2Proof/Laws/Bytes.lean ====
section
/-!
SUPPORT. The small lemmas of the byte-order functions: lengths, single bytes, and that decoding undoes encoding.
-/

namespace Sys2Proof.Machine

@[simp] theorem padTo_getElem {n : Nat} (s : List Byte) (i : Nat) (h : i < n) :
    (padTo n s)[i] = s.getD i 0 := by
  simp [padTo]

/-- Padding is appending zero bytes, when the bytes fit. -/
theorem padTo_toList {n : Nat} (s : List Byte) (h : s.length ≤ n) :
    (padTo n s).toList = s ++ List.replicate (n - s.length) 0 := by
  apply List.ext_getElem
  · simp; omega
  · intro i h1 h2
    simp only [Vector.getElem_toList, padTo_getElem, List.getElem_append, List.getD_eq_getElem?_getD]
    split <;> rename_i hi <;> simp [hi]

@[simp] theorem padTo_of_vector {n : Nat} (v : Vector Byte n) : padTo n v.toList = v := by
  ext i h
  simp [h]

@[simp] theorem leBytes64_length (w : Word) : (leBytes64 w).length = 8 := rfl

@[simp] theorem leBytes32_length (w : Header) : (leBytes32 w).length = 4 := rfl

@[simp] theorem leBytes_length {n : Nat} (ws : Vector Word n) : (leBytes ws).length = 8 * n := by
  simp [leBytes, List.length_flatMap, Nat.mul_comm]

/-- Byte `8i + j` of the encoding of an array of words is byte `j` of word `i` (R42). -/
theorem leBytes_getElem? {n : Nat} (ws : Vector Word n) (i j : Nat) (hi : i < n) (hj : j < 8) :
    (leBytes ws)[8 * i + j]? = (leBytes64 ws[i])[j]? := by
  rcases ws with ⟨⟨l⟩, hl⟩
  simp only [leBytes, Vector.toList, Vector.getElem_mk, List.getElem_toArray]
  have hl' : l.length = n := by simpa using hl
  subst hl'
  induction l generalizing i with
  | nil => simp at hi
  | cons w ws ih =>
    rw [List.flatMap_cons]
    cases i with
    | zero =>
      rw [List.getElem?_append_left (by simp; omega)]
      simp
    | succ k =>
      rw [List.getElem?_append_right (by simp; omega)]
      have : 8 * (k + 1) + j - (leBytes64 w).length = 8 * k + j := by simp; omega
      rw [this]
      exact ih k (by rw [List.length_cons] at hi; omega) rfl

/-- Reading a word from its own encoding gives it back (R10). -/
theorem le64_eq (s : List Byte) (k : Nat) (w : Word)
    (h : ∀ j, j < 8 → s.getD (8 * k + j) 0 = w.extractLsb' (8 * j) 8) : le64 s k = w := by
  have h0 := h 0 (by omega)
  have h1 := h 1 (by omega)
  have h2 := h 2 (by omega)
  have h3 := h 3 (by omega)
  have h4 := h 4 (by omega)
  have h5 := h 5 (by omega)
  have h6 := h 6 (by omega)
  have h7 := h 7 (by omega)
  simp only [Nat.add_zero] at h0
  simp only [le64, h0, h1, h2, h3, h4, h5, h6, h7]
  ext i hi
  simp only [BitVec.getElem_append, BitVec.getElem_extractLsb']
  repeat' split
  all_goals (rw [← BitVec.getLsbD_eq_getElem]; congr 1; omega)

@[simp] theorem le64_leBytes64 (w : Word) (rest : List Byte) : le64 (leBytes64 w ++ rest) 0 = w := by
  apply le64_eq
  intro j hj
  have : j = 0 ∨ j = 1 ∨ j = 2 ∨ j = 3 ∨ j = 4 ∨ j = 5 ∨ j = 6 ∨ j = 7 := by omega
  rcases this with rfl | rfl | rfl | rfl | rfl | rfl | rfl | rfl <;> rfl

/-- Words later in a byte sequence: skipping whole words shifts the index. -/
theorem le64_append (s t : List Byte) (k n : Nat) (h : s.length = 8 * n) :
    le64 (s ++ t) (n + k) = le64 t k := by
  have key : ∀ j, (s ++ t).getD (8 * (n + k) + j) 0 = t.getD (8 * k + j) 0 := by
    intro j
    simp only [List.getD_eq_getElem?_getD]
    rw [List.getElem?_append_right (by omega)]
    congr 2
    omega
  have key0 := key 0
  simp only [Nat.add_zero] at key0
  simp only [le64, key, key0]

/-- Reading the words of an encoded array gives the array back (R41, R65). -/
@[simp] theorem le64Words_leBytes {n : Nat} (ws : Vector Word n) (rest : List Byte) :
    le64Words n (leBytes ws ++ rest) 0 = ws := by
  ext i hi : 1
  simp only [le64Words, Vector.getElem_ofFn, Nat.zero_add]
  apply le64_eq
  intro j hj
  rw [List.getD_eq_getElem?_getD, List.getElem?_append_left (by simp; omega), leBytes_getElem? ws i j hi hj]
  have : j = 0 ∨ j = 1 ∨ j = 2 ∨ j = 3 ∨ j = 4 ∨ j = 5 ∨ j = 6 ∨ j = 7 := by omega
  rcases this with rfl | rfl | rfl | rfl | rfl | rfl | rfl | rfl <;> rfl

/-- A header is what its own four bytes form (R60). -/
@[simp] theorem le32_leBytes32 (w : Header) :
    le32 (w.extractLsb' 0 8) (w.extractLsb' 8 8) (w.extractLsb' 16 8) (w.extractLsb' 24 8) = w := by
  unfold le32
  ext i hi
  simp only [BitVec.getElem_append, BitVec.getElem_extractLsb']
  repeat' split
  all_goals (rw [← BitVec.getLsbD_eq_getElem]; congr 1; omega)

/-- Four bytes are the encoding of the header they form (R60). -/
theorem leBytes32_le32 (b0 b1 b2 b3 : Byte) : leBytes32 (le32 b0 b1 b2 b3) = [b0, b1, b2, b3] := by
  unfold leBytes32 le32
  refine List.cons_eq_cons.2 ⟨?_, List.cons_eq_cons.2 ⟨?_, List.cons_eq_cons.2 ⟨?_, List.cons_eq_cons.2 ⟨?_, rfl⟩⟩⟩⟩
  all_goals
    ext i hi
    simp only [BitVec.getElem_extractLsb', BitVec.getLsbD_append]
    repeat' split
    all_goals first
      | omega
      | (rw [← BitVec.getLsbD_eq_getElem]; congr 1; omega)

end Sys2Proof.Machine
end

