-- ==== Sys2Proof/Laws/PerInstr.lean ====
section
/-!
SUPPORT. Statements about every command as syntax, one lemma a constructor.

Framing: the header of a well-formed command announces exactly the length of its payload (30_encoding.md R63, R69).
-/

namespace Sys2Proof.Laws.Framing

open Sys2Proof.Machine

/-- The payload length that the encoded header gives is the length of the encoded payload. -/
def Statement (i : Instr) : Prop :=
  i.WellFormed → payloadLength (encodeHeader i) = (encodePayload i).length

theorem opcode_of_or (hdr low : Header) (h : low.extractLsb' 28 4 = 0) : hdrOpc (hdr ||| low) = hdrOpc hdr := by
  unfold hdrOpc
  ext i hi
  have := congrArg (fun v => v.getLsbD i) h
  simp only [BitVec.getLsbD_extractLsb', hi, decide_true, Bool.true_and] at this
  simp [BitVec.getElem_extractLsb', this]

theorem setup (nn kk : Byte) (key : Vector Byte 64) : Statement (.setup nn kk key) := by
  intro _
  have ho : hdrOpc (encodeHeader (.setup nn kk key)) = 1 := by
    unfold encodeHeader
    rw [opcode_of_or, opcode_of_or]
    · decide
    · ext i hi
      simp only [BitVec.getElem_extractLsb', BitVec.getLsbD_shiftLeft, BitVec.getLsbD_setWidth]
      rw [BitVec.getLsbD_of_ge _ _ (by omega)]
      simp
    · ext i hi
      simp only [BitVec.getElem_extractLsb', BitVec.getLsbD_setWidth]
      rw [BitVec.getLsbD_of_ge _ _ (by omega)]
      simp
  simp [payloadLength, ho, encodePayload]

theorem append (data : List Byte) : Statement (.append data) := by
  intro hwf
  have hlen : data.length ≤ 65535 := by simpa [Instr.WellFormed, Instr.wellFormed] using hwf
  have ho : hdrOpc (encodeHeader (.append data)) = 2 := by
    unfold encodeHeader
    rw [opcode_of_or]
    · decide
    · ext i hi
      simp only [BitVec.getElem_extractLsb', BitVec.getLsbD_setWidth]
      rw [BitVec.getLsbD_of_ge _ _ (by omega)]
      simp
  have hb : hdrB (encodeHeader (.append data)) = BitVec.ofNat 16 data.length := by
    unfold hdrB encodeHeader
    ext i hi
    have hz : (0x20000000 : Header).getLsbD i = false := by
      revert hi; revert i; decide
    rw [BitVec.getElem_extractLsb', Nat.zero_add, BitVec.getLsbD_or, hz, BitVec.getLsbD_setWidth,
      ← BitVec.getLsbD_eq_getElem]
    simp
    omega
  simp only [payloadLength, ho, hb, encodePayload]
  simp
  omega

theorem finalize : Statement .finalize := by intro _; decide

theorem compress (h : HashState) (block : Block) (t0 t1 : Word) (last : Bool) :
    Statement (.compress h block t0 t1 last) := by
  intro _
  have ho : hdrOpc (encodeHeader (.compress h block t0 t1 last)) = 4 := by
    cases last <;> simp only [encodeHeader] <;> decide
  simp [payloadLength, ho, encodePayload]

theorem setctr (t0 t1 : Word) : Statement (.setctr t0 t1) := by
  intro _
  have ho : hdrOpc (encodeHeader (.setctr t0 t1)) = 5 := by
    simp only [encodeHeader]
    decide
  simp [payloadLength, ho, encodePayload]

theorem status : Statement .status := by intro _; decide

end Sys2Proof.Laws.Framing
end

