-- ==== Sys2Proof/Laws/Decode.lean ====
section
/-!
SUPPORT. The lemmas of the decoder: a header as the concatenation of its fields, the encoder's headers in that form,
and the decoder on a header followed by a payload.
-/

namespace Sys2Proof

open Machine

/-- The header with these fields: `OPC`, `RSV`, `A`, `B[15:8]`, `B[7:0]` (R61). -/
def joinFields (opc rsv : BitVec 4) (a bHigh bLow : Byte) : Header :=
  opc ++ rsv ++ a ++ bHigh ++ bLow

theorem joinFields_bit (o r : BitVec 4) (a b c : Byte) (i : Nat) :
    (joinFields o r a b c).getLsbD i =
      if i < 8 then c.getLsbD i else if i < 16 then b.getLsbD (i - 8) else if i < 24 then a.getLsbD (i - 16)
      else if i < 28 then r.getLsbD (i - 24) else o.getLsbD (i - 28) := by
  unfold joinFields
  show BitVec.getLsbD (o ++ r ++ a ++ b ++ c : BitVec (4 + 4 + 8 + 8 + 8)) i = _
  simp only [BitVec.getLsbD_append]
  repeat' split
  all_goals first
    | rfl
    | omega

/-- A header is the concatenation of its fields (R61). -/
theorem header_eq_joinFields (hdr : Header) :
    hdr = joinFields (hdrOpc hdr) (hdrRsv hdr) (hdrA hdr) (hdrBHigh hdr) (hdrBLow hdr) := by
  apply BitVec.eq_of_getLsbD_eq
  intro i hi
  rw [joinFields_bit]
  unfold hdrOpc hdrRsv hdrA hdrBHigh hdrBLow
  simp only [BitVec.getLsbD_extractLsb']
  interval_cases i <;> rfl

/-- The fields of a header made of fields. -/
@[simp] theorem joinFields_fields (o r : BitVec 4) (a b c : Byte) :
    hdrOpc (joinFields o r a b c) = o ∧ hdrRsv (joinFields o r a b c) = r ∧ hdrA (joinFields o r a b c) = a ∧
    hdrBHigh (joinFields o r a b c) = b ∧ hdrBLow (joinFields o r a b c) = c := by
  unfold hdrOpc hdrRsv hdrA hdrBHigh hdrBLow
  refine ⟨?_, ?_, ?_, ?_, ?_⟩
  all_goals
    apply BitVec.eq_of_getLsbD_eq
    intro i hi
    rw [BitVec.getLsbD_extractLsb', joinFields_bit]
    simp only [hi, decide_true, Bool.true_and]
    interval_cases i <;> rfl

/-- `B` is its two bytes (R61, R62). -/
theorem hdrB_joinFields (o r : BitVec 4) (a b c : Byte) : hdrB (joinFields o r a b c) = b ++ c := by
  unfold hdrB
  apply BitVec.eq_of_getLsbD_eq
  intro i hi
  rw [BitVec.getLsbD_extractLsb', joinFields_bit, BitVec.getLsbD_append]
  simp only [hi, decide_true, Bool.true_and]
  interval_cases i <;> rfl

theorem encodeHeader_setup (nn kk : Byte) (key : Vector Byte 64) :
    encodeHeader (.setup nn kk key) = joinFields 1 0 nn 0 kk := by
  unfold encodeHeader
  apply BitVec.eq_of_getLsbD_eq
  intro i hi
  rw [joinFields_bit]
  simp only [BitVec.getLsbD_or, BitVec.getLsbD_shiftLeft, BitVec.getLsbD_setWidth]
  interval_cases i <;> simp

theorem encodeHeader_append (data : List Byte) :
    encodeHeader (.append data) =
      joinFields 2 0 0 ((BitVec.ofNat 16 data.length).extractLsb' 8 8)
        ((BitVec.ofNat 16 data.length).extractLsb' 0 8) := by
  unfold encodeHeader
  apply BitVec.eq_of_getLsbD_eq
  intro i hi
  rw [joinFields_bit]
  simp only [BitVec.getLsbD_or, BitVec.getLsbD_setWidth]
  interval_cases i <;> simp

/-- Matching under a mask, bit by bit. -/
theorem masked_eq_iff (x m p : Header) :
    x &&& m = p ↔ ∀ i < 32, (x.getLsbD i && m.getLsbD i) = p.getLsbD i := by
  constructor
  · rintro rfl i _
    simp
  · intro h
    apply BitVec.eq_of_getLsbD_eq
    intro i hi
    rw [BitVec.getLsbD_and]
    exact h i hi

/-- The decoder on a header and a payload (R60, R63, R68). -/
theorem decode_header_payload (hdr : Header) (payload : List Byte) :
    decode (leBytes32 hdr ++ payload) =
      if payload.length = payloadLength hdr then decodePayload (decodeHeader hdr) payload else .illFramed := by
  show (if payload.length = payloadLength (le32 (hdr.extractLsb' 0 8) (hdr.extractLsb' 8 8) (hdr.extractLsb' 16 8)
    (hdr.extractLsb' 24 8)) then _ else _) = _
  simp

/-- The payload length that the claims spell out is the one the decoder uses (R63). -/
theorem owedLength_eq (hdr : Header) : owedLength hdr = payloadLength hdr := by
  unfold owedLength payloadLength hdrOpc hdrB
  generalize (hdr.extractLsb' 28 4).toNat = q
  dsimp only
  split
  · simp_all
  · split
    · simp_all
    · split
      · simp_all
      · split
        · simp_all
        · split <;> simp_all

/-- Bytes are well framed exactly when the decoder does not call them ill framed (R74). -/
theorem wellFramed_iff (bytes : List Byte) : WellFramed bytes ↔ decode bytes ≠ .illFramed := by
  constructor
  · rintro ⟨hdr, payload, rfl, hl⟩
    rw [owedLength_eq] at hl
    rw [decode_header_payload, if_pos hl]
    cases decodeHeader hdr <;> simp [decodePayload]
  · intro h
    match bytes, h with
    | b0 :: b1 :: b2 :: b3 :: payload, h =>
      refine ⟨le32 b0 b1 b2 b3, payload, by rw [leBytes32_le32]; rfl, ?_⟩
      by_contra hc
      rw [owedLength_eq] at hc
      exact h (by simp [decode, hc])
    | [], h => exact absurd rfl h
    | [_], h => exact absurd rfl h
    | [_, _], h => exact absurd rfl h
    | [_, _, _], h => exact absurd rfl h

end Sys2Proof
end

