-- ==== Sys2Proof/Laws/Mixing.lean ====
section
/-!
SUPPORT. The words of the compression's arrays, read one at a time: the working array before the first round, the
message words, the result, and the words a mixing operation leaves alone.
-/

namespace Sys2Proof.Machine

/-- The working array before the first round, word by word (R85, steps 1 to 3). -/
theorem initWork_getElem (h : HashState) (t : Counter) (last : Bool) (i : Nat) (hi : i < 16) :
    (initWork h t last)[i] =
      if hlt : i < 8 then h[i]
      else if i = 12 then iv[4] ^^^ t.extractLsb' 0 64
      else if i = 13 then iv[5] ^^^ t.extractLsb' 64 64
      else if i = 14 then (if last then ~~~iv[6] else iv[6])
      else iv[i - 8] := by
  have start : ∀ (j : Nat) (hj : j < 16),
      (h ++ iv : Vector Word (8 + 8))[j] = if hlt : j < 8 then h[j] else iv[j - 8] :=
    fun j hj => Vector.getElem_append hj
  simp only [initWork]
  split <;> simp only [Vector.getElem_set]
  all_goals
    rcases Nat.lt_or_ge i 8 with h8 | h8
    · have h12 : ¬ 12 = i := by omega
      have h13 : ¬ 13 = i := by omega
      have h14 : ¬ 14 = i := by omega
      simp only [h12, h13, h14, if_false, h8, dif_pos]
      rw [start i hi, dif_pos h8]
    · rw [dif_neg (by omega)]
      interval_cases i <;> simp [start]

/-- `M[k] = le64(block, k)` (R85, step 4). -/
theorem messageWords_getElem (block : Block) (k : Nat) (hk : k < 16) :
    (messageWords block)[k] = le64 block.toList k := by
  simp [messageWords, le64Words]

/-- `h'[i] = h[i] ^ V[i] ^ V[i+8]` (R85, step 6). -/
theorem compress_getElem (h : HashState) (block : Block) (t : Counter) (last : Bool) (i : Nat) (hi : i < 8) :
    (compress h block t last)[i] =
      h[i] ^^^ (mixRounds (initWork h t last) (messageWords block))[i] ^^^
        (mixRounds (initWork h t last) (messageWords block))[i + 8] := by
  rw [compress]
  simp [foldWork]

/-- A mixing operation changes no word but the four it is given (R83). -/
theorem mixG_getElem_other (v : Work) (a b c d j : Fin 16) (x y : Word) (ha : j ≠ a) (hb : j ≠ b) (hc : j ≠ c)
    (hd : j ≠ d) : (mixG v a b c d x y)[j] = v[j] := by
  have na : a.val ≠ j.val := fun e => ha (Fin.ext e.symm)
  have nb : b.val ≠ j.val := fun e => hb (Fin.ext e.symm)
  have nc : c.val ≠ j.val := fun e => hc (Fin.ext e.symm)
  have nd : d.val ≠ j.val := fun e => hd (Fin.ext e.symm)
  have step : ∀ (w : Work) (k : Fin 16) (z : Word), k.val ≠ j.val → (w.set k z)[j] = w[j] :=
    fun w k z hk => Vector.getElem_set_ne k.isLt j.isLt hk
  simp only [mixG]
  rw [step _ _ _ nb, step _ _ _ nc, step _ _ _ nd, step _ _ _ na, step _ _ _ nb, step _ _ _ nc, step _ _ _ nd,
    step _ _ _ na]

end Sys2Proof.Machine
end

