-- ==== Sys2Proof/Laws/State.lean ====
section
/-!
SUPPORT. One lemma for each field of the state and each operation on it: what the operation makes of the field. Later
proofs cite these and unfold no record update.
-/

namespace Sys2Proof.Machine

variable (s : State)


@[simp] theorem respond_h (code : RespCode) (payload : List Byte) : (respond code payload s).h = s.h := rfl
@[simp] theorem respond_t0 (code : RespCode) (payload : List Byte) : (respond code payload s).t0 = s.t0 := rfl
@[simp] theorem respond_t1 (code : RespCode) (payload : List Byte) : (respond code payload s).t1 = s.t1 := rfl
@[simp] theorem respond_b (code : RespCode) (payload : List Byte) : (respond code payload s).b = s.b := rfl
@[simp] theorem respond_c (code : RespCode) (payload : List Byte) : (respond code payload s).c = s.c := rfl
@[simp] theorem respond_nn (code : RespCode) (payload : List Byte) : (respond code payload s).nn = s.nn := rfl
@[simp] theorem respond_kk (code : RespCode) (payload : List Byte) : (respond code payload s).kk = s.kk := rfl
@[simp] theorem respond_phase (code : RespCode) (payload : List Byte) : (respond code payload s).phase = s.phase := rfl
@[simp] theorem respond_misuseSeen (code : RespCode) (payload : List Byte) : (respond code payload s).misuseSeen = s.misuseSeen := rfl
@[simp] theorem respond_configSeen (code : RespCode) (payload : List Byte) : (respond code payload s).configSeen = s.configSeen := rfl
@[simp] theorem respond_badcmdSeen (code : RespCode) (payload : List Byte) : (respond code payload s).badcmdSeen = s.badcmdSeen := rfl
@[simp] theorem respond_inbox (code : RespCode) (payload : List Byte) : (respond code payload s).inbox = s.inbox := rfl
@[simp] theorem respond_outbox (code : RespCode) (payload : List Byte) : (respond code payload s).outbox = s.outbox ++ [⟨code, payload⟩] := rfl
@[simp] theorem respond_freeDraws (code : RespCode) (payload : List Byte) : (respond code payload s).freeDraws = s.freeDraws := rfl

@[simp] theorem setPhase_h (p : Phase) : (setPhase p s).h = s.h := rfl
@[simp] theorem setPhase_t0 (p : Phase) : (setPhase p s).t0 = s.t0 := rfl
@[simp] theorem setPhase_t1 (p : Phase) : (setPhase p s).t1 = s.t1 := rfl
@[simp] theorem setPhase_b (p : Phase) : (setPhase p s).b = s.b := rfl
@[simp] theorem setPhase_c (p : Phase) : (setPhase p s).c = s.c := rfl
@[simp] theorem setPhase_nn (p : Phase) : (setPhase p s).nn = s.nn := rfl
@[simp] theorem setPhase_kk (p : Phase) : (setPhase p s).kk = s.kk := rfl
@[simp] theorem setPhase_phase (p : Phase) : (setPhase p s).phase = p := rfl
@[simp] theorem setPhase_misuseSeen (p : Phase) : (setPhase p s).misuseSeen = s.misuseSeen := rfl
@[simp] theorem setPhase_configSeen (p : Phase) : (setPhase p s).configSeen = s.configSeen := rfl
@[simp] theorem setPhase_badcmdSeen (p : Phase) : (setPhase p s).badcmdSeen = s.badcmdSeen := rfl
@[simp] theorem setPhase_inbox (p : Phase) : (setPhase p s).inbox = s.inbox := rfl
@[simp] theorem setPhase_outbox (p : Phase) : (setPhase p s).outbox = s.outbox := rfl
@[simp] theorem setPhase_freeDraws (p : Phase) : (setPhase p s).freeDraws = s.freeDraws := rfl

@[simp] theorem ctrAdd_h (n : Word) : (ctrAdd n s).h = s.h := rfl
@[simp] theorem ctrAdd_t0 (n : Word) : (ctrAdd n s).t0 = s.t0 + n := rfl
@[simp] theorem ctrAdd_t1 (n : Word) : (ctrAdd n s).t1 = if s.t0 + n < n then s.t1 + 1 else s.t1 := rfl
@[simp] theorem ctrAdd_b (n : Word) : (ctrAdd n s).b = s.b := rfl
@[simp] theorem ctrAdd_c (n : Word) : (ctrAdd n s).c = s.c := rfl
@[simp] theorem ctrAdd_nn (n : Word) : (ctrAdd n s).nn = s.nn := rfl
@[simp] theorem ctrAdd_kk (n : Word) : (ctrAdd n s).kk = s.kk := rfl
@[simp] theorem ctrAdd_phase (n : Word) : (ctrAdd n s).phase = s.phase := rfl
@[simp] theorem ctrAdd_misuseSeen (n : Word) : (ctrAdd n s).misuseSeen = s.misuseSeen := rfl
@[simp] theorem ctrAdd_configSeen (n : Word) : (ctrAdd n s).configSeen = s.configSeen := rfl
@[simp] theorem ctrAdd_badcmdSeen (n : Word) : (ctrAdd n s).badcmdSeen = s.badcmdSeen := rfl
@[simp] theorem ctrAdd_inbox (n : Word) : (ctrAdd n s).inbox = s.inbox := rfl
@[simp] theorem ctrAdd_outbox (n : Word) : (ctrAdd n s).outbox = s.outbox := rfl
@[simp] theorem ctrAdd_freeDraws (n : Word) : (ctrAdd n s).freeDraws = s.freeDraws := rfl

@[simp] theorem compressBuffer_h (last : Bool) : (compressBuffer last s).h = compress s.h s.b (counter s) last := rfl
@[simp] theorem compressBuffer_t0 (last : Bool) : (compressBuffer last s).t0 = s.t0 := rfl
@[simp] theorem compressBuffer_t1 (last : Bool) : (compressBuffer last s).t1 = s.t1 := rfl
@[simp] theorem compressBuffer_b (last : Bool) : (compressBuffer last s).b = s.b := rfl
@[simp] theorem compressBuffer_c (last : Bool) : (compressBuffer last s).c = s.c := rfl
@[simp] theorem compressBuffer_nn (last : Bool) : (compressBuffer last s).nn = s.nn := rfl
@[simp] theorem compressBuffer_kk (last : Bool) : (compressBuffer last s).kk = s.kk := rfl
@[simp] theorem compressBuffer_phase (last : Bool) : (compressBuffer last s).phase = s.phase := rfl
@[simp] theorem compressBuffer_misuseSeen (last : Bool) : (compressBuffer last s).misuseSeen = s.misuseSeen := rfl
@[simp] theorem compressBuffer_configSeen (last : Bool) : (compressBuffer last s).configSeen = s.configSeen := rfl
@[simp] theorem compressBuffer_badcmdSeen (last : Bool) : (compressBuffer last s).badcmdSeen = s.badcmdSeen := rfl
@[simp] theorem compressBuffer_inbox (last : Bool) : (compressBuffer last s).inbox = s.inbox := rfl
@[simp] theorem compressBuffer_outbox (last : Bool) : (compressBuffer last s).outbox = s.outbox := rfl
@[simp] theorem compressBuffer_freeDraws (last : Bool) : (compressBuffer last s).freeDraws = s.freeDraws := rfl

@[simp] theorem flushBuffer_h : (flushBuffer s).h = compress s.h s.b (counter (ctrAdd 128 s)) false := rfl
@[simp] theorem flushBuffer_t0 : (flushBuffer s).t0 = s.t0 + 128 := rfl
@[simp] theorem flushBuffer_t1 : (flushBuffer s).t1 = if s.t0 + 128 < 128 then s.t1 + 1 else s.t1 := rfl
@[simp] theorem flushBuffer_b : (flushBuffer s).b = s.b := rfl
@[simp] theorem flushBuffer_c : (flushBuffer s).c = 0 := rfl
@[simp] theorem flushBuffer_nn : (flushBuffer s).nn = s.nn := rfl
@[simp] theorem flushBuffer_kk : (flushBuffer s).kk = s.kk := rfl
@[simp] theorem flushBuffer_phase : (flushBuffer s).phase = s.phase := rfl
@[simp] theorem flushBuffer_misuseSeen : (flushBuffer s).misuseSeen = s.misuseSeen := rfl
@[simp] theorem flushBuffer_configSeen : (flushBuffer s).configSeen = s.configSeen := rfl
@[simp] theorem flushBuffer_badcmdSeen : (flushBuffer s).badcmdSeen = s.badcmdSeen := rfl
@[simp] theorem flushBuffer_inbox : (flushBuffer s).inbox = s.inbox := rfl
@[simp] theorem flushBuffer_outbox : (flushBuffer s).outbox = s.outbox := rfl
@[simp] theorem flushBuffer_freeDraws : (flushBuffer s).freeDraws = s.freeDraws := rfl

@[simp] theorem placeByte_h (x : Byte) : (placeByte x s).h = s.h := rfl
@[simp] theorem placeByte_t0 (x : Byte) : (placeByte x s).t0 = s.t0 := rfl
@[simp] theorem placeByte_t1 (x : Byte) : (placeByte x s).t1 = s.t1 := rfl
@[simp] theorem placeByte_b (x : Byte) : (placeByte x s).b = s.b.setIfInBounds s.c.val x := rfl
@[simp] theorem placeByte_c (x : Byte) : (placeByte x s).c = s.c + 1 := rfl
@[simp] theorem placeByte_nn (x : Byte) : (placeByte x s).nn = s.nn := rfl
@[simp] theorem placeByte_kk (x : Byte) : (placeByte x s).kk = s.kk := rfl
@[simp] theorem placeByte_phase (x : Byte) : (placeByte x s).phase = s.phase := rfl
@[simp] theorem placeByte_misuseSeen (x : Byte) : (placeByte x s).misuseSeen = s.misuseSeen := rfl
@[simp] theorem placeByte_configSeen (x : Byte) : (placeByte x s).configSeen = s.configSeen := rfl
@[simp] theorem placeByte_badcmdSeen (x : Byte) : (placeByte x s).badcmdSeen = s.badcmdSeen := rfl
@[simp] theorem placeByte_inbox (x : Byte) : (placeByte x s).inbox = s.inbox := rfl
@[simp] theorem placeByte_outbox (x : Byte) : (placeByte x s).outbox = s.outbox := rfl
@[simp] theorem placeByte_freeDraws (x : Byte) : (placeByte x s).freeDraws = s.freeDraws := rfl

@[simp] theorem zeroFill_h : (zeroFill s).h = s.h := rfl
@[simp] theorem zeroFill_t0 : (zeroFill s).t0 = s.t0 := rfl
@[simp] theorem zeroFill_t1 : (zeroFill s).t1 = s.t1 := rfl
@[simp] theorem zeroFill_b : (zeroFill s).b = padTo 128 (s.b.toList.take s.c.val) := rfl
@[simp] theorem zeroFill_c : (zeroFill s).c = 128 := rfl
@[simp] theorem zeroFill_nn : (zeroFill s).nn = s.nn := rfl
@[simp] theorem zeroFill_kk : (zeroFill s).kk = s.kk := rfl
@[simp] theorem zeroFill_phase : (zeroFill s).phase = s.phase := rfl
@[simp] theorem zeroFill_misuseSeen : (zeroFill s).misuseSeen = s.misuseSeen := rfl
@[simp] theorem zeroFill_configSeen : (zeroFill s).configSeen = s.configSeen := rfl
@[simp] theorem zeroFill_badcmdSeen : (zeroFill s).badcmdSeen = s.badcmdSeen := rfl
@[simp] theorem zeroFill_inbox : (zeroFill s).inbox = s.inbox := rfl
@[simp] theorem zeroFill_outbox : (zeroFill s).outbox = s.outbox := rfl
@[simp] theorem zeroFill_freeDraws : (zeroFill s).freeDraws = s.freeDraws := rfl

@[simp] theorem startHash_h (nn kk : Byte) : (startHash nn kk s).h = initHash nn kk := rfl
@[simp] theorem startHash_t0 (nn kk : Byte) : (startHash nn kk s).t0 = 0 := rfl
@[simp] theorem startHash_t1 (nn kk : Byte) : (startHash nn kk s).t1 = 0 := rfl
@[simp] theorem startHash_b (nn kk : Byte) : (startHash nn kk s).b = s.b := rfl
@[simp] theorem startHash_c (nn kk : Byte) : (startHash nn kk s).c = s.c := rfl
@[simp] theorem startHash_nn (nn kk : Byte) : (startHash nn kk s).nn = nn := rfl
@[simp] theorem startHash_kk (nn kk : Byte) : (startHash nn kk s).kk = kk := rfl
@[simp] theorem startHash_phase (nn kk : Byte) : (startHash nn kk s).phase = s.phase := rfl
@[simp] theorem startHash_misuseSeen (nn kk : Byte) : (startHash nn kk s).misuseSeen = s.misuseSeen := rfl
@[simp] theorem startHash_configSeen (nn kk : Byte) : (startHash nn kk s).configSeen = s.configSeen := rfl
@[simp] theorem startHash_badcmdSeen (nn kk : Byte) : (startHash nn kk s).badcmdSeen = s.badcmdSeen := rfl
@[simp] theorem startHash_inbox (nn kk : Byte) : (startHash nn kk s).inbox = s.inbox := rfl
@[simp] theorem startHash_outbox (nn kk : Byte) : (startHash nn kk s).outbox = s.outbox := rfl
@[simp] theorem startHash_freeDraws (nn kk : Byte) : (startHash nn kk s).freeDraws = s.freeDraws := rfl

@[simp] theorem deliver_h (e : HostEvent) : (deliver e s).h = s.h := rfl
@[simp] theorem deliver_t0 (e : HostEvent) : (deliver e s).t0 = s.t0 := rfl
@[simp] theorem deliver_t1 (e : HostEvent) : (deliver e s).t1 = s.t1 := rfl
@[simp] theorem deliver_b (e : HostEvent) : (deliver e s).b = s.b := rfl
@[simp] theorem deliver_c (e : HostEvent) : (deliver e s).c = s.c := rfl
@[simp] theorem deliver_nn (e : HostEvent) : (deliver e s).nn = s.nn := rfl
@[simp] theorem deliver_kk (e : HostEvent) : (deliver e s).kk = s.kk := rfl
@[simp] theorem deliver_phase (e : HostEvent) : (deliver e s).phase = s.phase := rfl
@[simp] theorem deliver_misuseSeen (e : HostEvent) : (deliver e s).misuseSeen = s.misuseSeen := rfl
@[simp] theorem deliver_configSeen (e : HostEvent) : (deliver e s).configSeen = s.configSeen := rfl
@[simp] theorem deliver_badcmdSeen (e : HostEvent) : (deliver e s).badcmdSeen = s.badcmdSeen := rfl
@[simp] theorem deliver_inbox (e : HostEvent) : (deliver e s).inbox = s.inbox ++ [e] := rfl
@[simp] theorem deliver_outbox (e : HostEvent) : (deliver e s).outbox = s.outbox := rfl
@[simp] theorem deliver_freeDraws (e : HostEvent) : (deliver e s).freeDraws = s.freeDraws := rfl

@[simp] theorem deliverFirst_h (bytes : List Byte) : (deliverFirst bytes s).h = s.h := rfl
@[simp] theorem deliverFirst_t0 (bytes : List Byte) : (deliverFirst bytes s).t0 = s.t0 := rfl
@[simp] theorem deliverFirst_t1 (bytes : List Byte) : (deliverFirst bytes s).t1 = s.t1 := rfl
@[simp] theorem deliverFirst_b (bytes : List Byte) : (deliverFirst bytes s).b = s.b := rfl
@[simp] theorem deliverFirst_c (bytes : List Byte) : (deliverFirst bytes s).c = s.c := rfl
@[simp] theorem deliverFirst_nn (bytes : List Byte) : (deliverFirst bytes s).nn = s.nn := rfl
@[simp] theorem deliverFirst_kk (bytes : List Byte) : (deliverFirst bytes s).kk = s.kk := rfl
@[simp] theorem deliverFirst_phase (bytes : List Byte) : (deliverFirst bytes s).phase = s.phase := rfl
@[simp] theorem deliverFirst_misuseSeen (bytes : List Byte) : (deliverFirst bytes s).misuseSeen = s.misuseSeen := rfl
@[simp] theorem deliverFirst_configSeen (bytes : List Byte) : (deliverFirst bytes s).configSeen = s.configSeen := rfl
@[simp] theorem deliverFirst_badcmdSeen (bytes : List Byte) : (deliverFirst bytes s).badcmdSeen = s.badcmdSeen := rfl
@[simp] theorem deliverFirst_inbox (bytes : List Byte) : (deliverFirst bytes s).inbox = .command bytes :: s.inbox := rfl
@[simp] theorem deliverFirst_outbox (bytes : List Byte) : (deliverFirst bytes s).outbox = s.outbox := rfl
@[simp] theorem deliverFirst_freeDraws (bytes : List Byte) : (deliverFirst bytes s).freeDraws = s.freeDraws := rfl

@[simp] theorem applyReset_h : (applyReset s).h = Vector.ofFn fun i => Config.resetWord s.freeDraws i.val := rfl
@[simp] theorem applyReset_t0 : (applyReset s).t0 = Config.resetWord s.freeDraws 8 := rfl
@[simp] theorem applyReset_t1 : (applyReset s).t1 = Config.resetWord s.freeDraws 9 := rfl
@[simp] theorem applyReset_b : (applyReset s).b = Vector.ofFn fun i => Config.resetByte s.freeDraws i.val := rfl
@[simp] theorem applyReset_c : (applyReset s).c = 0 := rfl
@[simp] theorem applyReset_nn : (applyReset s).nn = 0 := rfl
@[simp] theorem applyReset_kk : (applyReset s).kk = 0 := rfl
@[simp] theorem applyReset_phase : (applyReset s).phase = .unconfigured := rfl
@[simp] theorem applyReset_misuseSeen : (applyReset s).misuseSeen = false := rfl
@[simp] theorem applyReset_configSeen : (applyReset s).configSeen = false := rfl
@[simp] theorem applyReset_badcmdSeen : (applyReset s).badcmdSeen = false := rfl
@[simp] theorem applyReset_inbox : (applyReset s).inbox = s.inbox := rfl
@[simp] theorem applyReset_outbox : (applyReset s).outbox = s.outbox := rfl
@[simp] theorem applyReset_freeDraws : (applyReset s).freeDraws = s.freeDraws + 1 := rfl

@[simp] theorem setSticky_h (code : RespCode) : (setSticky code s).h = s.h := by
  cases code <;> rfl
@[simp] theorem setSticky_t0 (code : RespCode) : (setSticky code s).t0 = s.t0 := by
  cases code <;> rfl
@[simp] theorem setSticky_t1 (code : RespCode) : (setSticky code s).t1 = s.t1 := by
  cases code <;> rfl
@[simp] theorem setSticky_b (code : RespCode) : (setSticky code s).b = s.b := by
  cases code <;> rfl
@[simp] theorem setSticky_c (code : RespCode) : (setSticky code s).c = s.c := by
  cases code <;> rfl
@[simp] theorem setSticky_nn (code : RespCode) : (setSticky code s).nn = s.nn := by
  cases code <;> rfl
@[simp] theorem setSticky_kk (code : RespCode) : (setSticky code s).kk = s.kk := by
  cases code <;> rfl
@[simp] theorem setSticky_phase (code : RespCode) : (setSticky code s).phase = s.phase := by
  cases code <;> rfl
@[simp] theorem setSticky_misuseSeen (code : RespCode) : (setSticky code s).misuseSeen = (s.misuseSeen || code == .misuse) := by
  cases code <;> simp [setSticky]
@[simp] theorem setSticky_configSeen (code : RespCode) : (setSticky code s).configSeen = (s.configSeen || code == .configError) := by
  cases code <;> simp [setSticky]
@[simp] theorem setSticky_badcmdSeen (code : RespCode) : (setSticky code s).badcmdSeen = (s.badcmdSeen || code == .badCmd) := by
  cases code <;> simp [setSticky]
@[simp] theorem setSticky_inbox (code : RespCode) : (setSticky code s).inbox = s.inbox := by
  cases code <;> rfl
@[simp] theorem setSticky_outbox (code : RespCode) : (setSticky code s).outbox = s.outbox := by
  cases code <;> rfl
@[simp] theorem setSticky_freeDraws (code : RespCode) : (setSticky code s).freeDraws = s.freeDraws := by
  cases code <;> rfl

@[simp] theorem raise_h (code : RespCode) : (raise code s).h = s.h := by simp [raise]
@[simp] theorem raise_t0 (code : RespCode) : (raise code s).t0 = s.t0 := by simp [raise]
@[simp] theorem raise_t1 (code : RespCode) : (raise code s).t1 = s.t1 := by simp [raise]
@[simp] theorem raise_b (code : RespCode) : (raise code s).b = s.b := by simp [raise]
@[simp] theorem raise_c (code : RespCode) : (raise code s).c = s.c := by simp [raise]
@[simp] theorem raise_nn (code : RespCode) : (raise code s).nn = s.nn := by simp [raise]
@[simp] theorem raise_kk (code : RespCode) : (raise code s).kk = s.kk := by simp [raise]
@[simp] theorem raise_phase (code : RespCode) : (raise code s).phase = s.phase := by simp [raise]
@[simp] theorem raise_misuseSeen (code : RespCode) : (raise code s).misuseSeen = (s.misuseSeen || code == .misuse) := by simp [raise]
@[simp] theorem raise_configSeen (code : RespCode) : (raise code s).configSeen = (s.configSeen || code == .configError) := by simp [raise]
@[simp] theorem raise_badcmdSeen (code : RespCode) : (raise code s).badcmdSeen = (s.badcmdSeen || code == .badCmd) := by simp [raise]
@[simp] theorem raise_inbox (code : RespCode) : (raise code s).inbox = s.inbox := by simp [raise]
@[simp] theorem raise_outbox (code : RespCode) : (raise code s).outbox = s.outbox ++ [⟨code, []⟩] := by simp [raise]
@[simp] theorem raise_freeDraws (code : RespCode) : (raise code s).freeDraws = s.freeDraws := by simp [raise]

@[simp] theorem loadKey_h (kk : Byte) (key : Vector Byte 64) : (loadKey kk key s).h = s.h := by
  unfold loadKey; split <;> rfl
@[simp] theorem loadKey_t0 (kk : Byte) (key : Vector Byte 64) : (loadKey kk key s).t0 = s.t0 := by
  unfold loadKey; split <;> rfl
@[simp] theorem loadKey_t1 (kk : Byte) (key : Vector Byte 64) : (loadKey kk key s).t1 = s.t1 := by
  unfold loadKey; split <;> rfl
@[simp] theorem loadKey_b (kk : Byte) (key : Vector Byte 64) : (loadKey kk key s).b = if 0 < kk.toNat then padTo 128 (key.toList.take kk.toNat) else s.b := by
  unfold loadKey; split <;> rfl
@[simp] theorem loadKey_c (kk : Byte) (key : Vector Byte 64) : (loadKey kk key s).c = if 0 < kk.toNat then 128 else 0 := by
  unfold loadKey; split <;> rfl
@[simp] theorem loadKey_nn (kk : Byte) (key : Vector Byte 64) : (loadKey kk key s).nn = s.nn := by
  unfold loadKey; split <;> rfl
@[simp] theorem loadKey_kk (kk : Byte) (key : Vector Byte 64) : (loadKey kk key s).kk = s.kk := by
  unfold loadKey; split <;> rfl
@[simp] theorem loadKey_phase (kk : Byte) (key : Vector Byte 64) : (loadKey kk key s).phase = s.phase := by
  unfold loadKey; split <;> rfl
@[simp] theorem loadKey_misuseSeen (kk : Byte) (key : Vector Byte 64) : (loadKey kk key s).misuseSeen = s.misuseSeen := by
  unfold loadKey; split <;> rfl
@[simp] theorem loadKey_configSeen (kk : Byte) (key : Vector Byte 64) : (loadKey kk key s).configSeen = s.configSeen := by
  unfold loadKey; split <;> rfl
@[simp] theorem loadKey_badcmdSeen (kk : Byte) (key : Vector Byte 64) : (loadKey kk key s).badcmdSeen = s.badcmdSeen := by
  unfold loadKey; split <;> rfl
@[simp] theorem loadKey_inbox (kk : Byte) (key : Vector Byte 64) : (loadKey kk key s).inbox = s.inbox := by
  unfold loadKey; split <;> rfl
@[simp] theorem loadKey_outbox (kk : Byte) (key : Vector Byte 64) : (loadKey kk key s).outbox = s.outbox := by
  unfold loadKey; split <;> rfl
@[simp] theorem loadKey_freeDraws (kk : Byte) (key : Vector Byte 64) : (loadKey kk key s).freeDraws = s.freeDraws := by
  unfold loadKey; split <;> rfl

/-! What does not touch the counter words leaves the counter. -/

@[simp] theorem counter_respond (code : RespCode) (payload : List Byte) : counter (respond code payload s) = counter s := rfl
@[simp] theorem counter_setPhase (p : Phase) : counter (setPhase p s) = counter s := rfl
@[simp] theorem counter_placeByte (x : Byte) : counter (placeByte x s) = counter s := rfl
@[simp] theorem counter_compressBuffer (last : Bool) : counter (compressBuffer last s) = counter s := rfl
@[simp] theorem counter_flushBuffer : counter (flushBuffer s) = counter (ctrAdd 128 s) := rfl
@[simp] theorem counter_zeroFill : counter (zeroFill s) = counter s := rfl

/-- Two states with the same fields are the same state. -/
theorem State.ext_fields {s s' : State} (h : s.h = s'.h) (t0 : s.t0 = s'.t0) (t1 : s.t1 = s'.t1) (b : s.b = s'.b)
    (c : s.c = s'.c) (nn : s.nn = s'.nn) (kk : s.kk = s'.kk) (phase : s.phase = s'.phase)
    (m : s.misuseSeen = s'.misuseSeen) (g : s.configSeen = s'.configSeen) (d : s.badcmdSeen = s'.badcmdSeen)
    (i : s.inbox = s'.inbox) (o : s.outbox = s'.outbox) (f : s.freeDraws = s'.freeDraws) : s = s' := by
  cases s; cases s'; simp_all

end Sys2Proof.Machine
end

