-- ==== Sys2Proof/Laws/Ops.lean ====
section
/-!
SUPPORT. For each shared operation, everything it can do, said once: the phase check, appending bytes, the commands'
meanings, and sequences of commands.
-/

namespace Sys2Proof.Machine

/-! The phase check (R142). -/

theorem whenReady_ready (perform : State → State) {s : State} (h : s.phase = .ready) :
    whenReady perform s = .next (perform s) := by
  simp [whenReady, h]

theorem whenReady_not_ready (perform : State → State) {s : State} (h : s.phase ≠ .ready) :
    whenReady perform s = .next (raise .misuse s) := by
  simp [whenReady, h]

/-- The phase check answers in one of two ways, and always goes on. -/
theorem whenReady_cases {perform : State → State} {s s' : State} (h : whenReady perform s = .next s') :
    (s.phase = .ready ∧ s' = perform s) ∨ (s.phase ≠ .ready ∧ s' = raise .misuse s) := by
  by_cases hp : s.phase = .ready
  · rw [whenReady_ready perform hp] at h
    exact .inl ⟨hp, by cases h; rfl⟩
  · rw [whenReady_not_ready perform hp] at h
    exact .inr ⟨hp, by cases h; rfl⟩

/-! Appending (R105, R106). -/

theorem appendByte_full (x : Byte) {s : State} (h : s.c = 128) : appendByte x s = placeByte x (flushBuffer s) := by
  simp [appendByte, h]

theorem appendByte_room (x : Byte) {s : State} (h : s.c ≠ 128) : appendByte x s = placeByte x s := by
  simp [appendByte, h]

/-- The fill length after one byte: one more, or 1 where the buffer was full. -/
theorem appendByte_c (x : Byte) (s : State) :
    (appendByte x s).c.val = if s.c = 128 then 1 else s.c.val + 1 := by
  by_cases h : s.c = 128
  · simp [appendByte_full x h, h]
  · have hlt : s.c.val < 128 := by
      have := s.c.isLt
      have : s.c.val ≠ 128 := fun hv => h (Fin.ext hv)
      omega
    rw [appendByte_room x h, placeByte_c, Fin.val_add]
    simp only [h, if_false]
    exact Nat.mod_eq_of_lt (by simp; omega)

/-- The counter after one byte: 128 more where the buffer was full. -/
theorem appendByte_counter (x : Byte) (s : State) :
    counter (appendByte x s) = if s.c = 128 then counter (ctrAdd 128 s) else counter s := by
  by_cases h : s.c = 128
  · simp [appendByte_full x h, h]
  · simp [appendByte_room x h, h]

/-- A byte writes the hash state, the counter, the buffer and the fill length, and nothing else. -/
theorem appendByte_frame (x : Byte) (s : State) :
    appendByte x s = { s with h := (appendByte x s).h, t0 := (appendByte x s).t0, t1 := (appendByte x s).t1,
                              b := (appendByte x s).b, c := (appendByte x s).c } := by
  by_cases h : s.c = 128
  · rw [appendByte_full x h]; rfl
  · rw [appendByte_room x h]; rfl

@[simp] theorem appendBytes_nil (s : State) : appendBytes [] s = s := rfl

@[simp] theorem appendBytes_cons (x : Byte) (xs : List Byte) (s : State) :
    appendBytes (x :: xs) s = appendBytes xs (appendByte x s) := rfl

/-- Appending does not see where one APPEND ends and the next begins. -/
theorem appendBytes_append (xs ys : List Byte) (s : State) :
    appendBytes (xs ++ ys) s = appendBytes ys (appendBytes xs s) := by
  simp [appendBytes, List.foldl_append]

/-- Bytes write the hash state, the counter, the buffer and the fill length, and nothing else. -/
theorem appendBytes_frame (xs : List Byte) (s : State) :
    appendBytes xs s = { s with h := (appendBytes xs s).h, t0 := (appendBytes xs s).t0, t1 := (appendBytes xs s).t1,
                                b := (appendBytes xs s).b, c := (appendBytes xs s).c } := by
  induction xs generalizing s with
  | nil => rfl
  | cons x xs ih =>
    rw [appendBytes_cons, ih, appendByte_frame]

@[simp] theorem appendBytes_phase (xs : List Byte) (s : State) : (appendBytes xs s).phase = s.phase := by
  rw [appendBytes_frame]

@[simp] theorem appendBytes_nn (xs : List Byte) (s : State) : (appendBytes xs s).nn = s.nn := by
  rw [appendBytes_frame]

@[simp] theorem appendBytes_kk (xs : List Byte) (s : State) : (appendBytes xs s).kk = s.kk := by
  rw [appendBytes_frame]

@[simp] theorem appendBytes_misuseSeen (xs : List Byte) (s : State) :
    (appendBytes xs s).misuseSeen = s.misuseSeen := by
  rw [appendBytes_frame]

@[simp] theorem appendBytes_configSeen (xs : List Byte) (s : State) :
    (appendBytes xs s).configSeen = s.configSeen := by
  rw [appendBytes_frame]

@[simp] theorem appendBytes_badcmdSeen (xs : List Byte) (s : State) :
    (appendBytes xs s).badcmdSeen = s.badcmdSeen := by
  rw [appendBytes_frame]

@[simp] theorem appendBytes_inbox (xs : List Byte) (s : State) : (appendBytes xs s).inbox = s.inbox := by
  rw [appendBytes_frame]

@[simp] theorem appendBytes_outbox (xs : List Byte) (s : State) : (appendBytes xs s).outbox = s.outbox := by
  rw [appendBytes_frame]

@[simp] theorem appendBytes_freeDraws (xs : List Byte) (s : State) :
    (appendBytes xs s).freeDraws = s.freeDraws := by
  rw [appendBytes_frame]

/-- Appending neither reads nor writes what the host has sent. -/
theorem appendBytes_withInbox (xs : List Byte) (s : State) (inb : List HostEvent) :
    appendBytes xs { s with inbox := inb } = { appendBytes xs s with inbox := inb } := by
  induction xs generalizing s with
  | nil => rfl
  | cons x xs ih =>
    have : appendByte x { s with inbox := inb } = { appendByte x s with inbox := inb } := by
      unfold appendByte; split <;> rfl
    rw [appendBytes_cons, this, ih]; rfl

/-- Appending neither reads nor writes the responses. -/
theorem appendBytes_withOutbox (xs : List Byte) (s : State) (out : List Response) :
    appendBytes xs { s with outbox := out } = { appendBytes xs s with outbox := out } := by
  induction xs generalizing s with
  | nil => rfl
  | cons x xs ih =>
    have : appendByte x { s with outbox := out } = { appendByte x s with outbox := out } := by
      unfold appendByte; split <;> rfl
    rw [appendBytes_cons, this, ih]; rfl

/-! The last compression (R107) writes the hash state, the counter, the buffer, the fill length and the phase. -/

@[simp] theorem finishHash_c (s : State) : (finishHash s).c = 128 := by simp [finishHash]
@[simp] theorem finishHash_phase (s : State) : (finishHash s).phase = .finalized := by simp [finishHash]
@[simp] theorem finishHash_nn (s : State) : (finishHash s).nn = s.nn := by simp [finishHash]
@[simp] theorem finishHash_kk (s : State) : (finishHash s).kk = s.kk := by simp [finishHash]
@[simp] theorem finishHash_misuseSeen (s : State) : (finishHash s).misuseSeen = s.misuseSeen := by simp [finishHash]
@[simp] theorem finishHash_configSeen (s : State) : (finishHash s).configSeen = s.configSeen := by simp [finishHash]
@[simp] theorem finishHash_badcmdSeen (s : State) : (finishHash s).badcmdSeen = s.badcmdSeen := by simp [finishHash]
@[simp] theorem finishHash_inbox (s : State) : (finishHash s).inbox = s.inbox := by simp [finishHash]
@[simp] theorem finishHash_outbox (s : State) : (finishHash s).outbox = s.outbox := by simp [finishHash]
@[simp] theorem finishHash_freeDraws (s : State) : (finishHash s).freeDraws = s.freeDraws := by simp [finishHash]
@[simp] theorem finishHash_b (s : State) : (finishHash s).b = padTo 128 (s.b.toList.take s.c.val) := by
  simp [finishHash]
@[simp] theorem finishHash_counter (s : State) :
    counter (finishHash s) = counter (ctrAdd (BitVec.ofNat 64 s.c.val) s) := by
  simp [finishHash]
theorem finishHash_h (s : State) :
    (finishHash s).h = compress s.h (padTo 128 (s.b.toList.take s.c.val))
      (counter (ctrAdd (BitVec.ofNat 64 s.c.val) s)) true := by
  simp [finishHash]

/-! The commands' meanings: what each answers, for every state. -/

theorem exec_append_ready (data : List Byte) {s : State} (h : s.phase = .ready) :
    exec (.append data) s = .next (respond .ok [] (appendBytes data s)) :=
  whenReady_ready (fun s => respond .ok [] (appendBytes data s)) h

theorem exec_finalize_ready {s : State} (h : s.phase = .ready) :
    exec .finalize s = .next (respond .ok (digest (finishHash s)) (finishHash s)) :=
  whenReady_ready (fun s => respond .ok (digest (finishHash s)) (finishHash s)) h

/-- A command answers a next state, whatever the state. -/
theorem exec_answers (i : Instr) (s : State) : ∃ s', exec i s = .next s' := by
  cases i with
  | setup nn kk key => simp only [exec, execSetup]; split <;> exact ⟨_, rfl⟩
  | append data => simp only [exec, execAppend, whenReady]; split <;> exact ⟨_, rfl⟩
  | finalize => simp only [exec, execFinalize, whenReady]; split <;> exact ⟨_, rfl⟩
  | compress h block t0 t1 last => exact ⟨_, rfl⟩
  | setctr t0 t1 => simp only [exec, execSetctr, whenReady]; split <;> exact ⟨_, rfl⟩
  | status => exact ⟨_, rfl⟩

/-- Everything a command can do: one of the ways the rules give (R87, R103, R106, R107, R130, R131, R142). -/
theorem exec_cases {i : Instr} {s s' : State} (h : exec i s = .next s') :
    (∃ nn kk key, i = .setup nn kk key ∧ configValid nn kk = true ∧
      s' = respond .ok [] (setPhase .ready (loadKey kk key (startHash nn kk s)))) ∨
    (∃ nn kk key, i = .setup nn kk key ∧ configValid nn kk = false ∧
      s' = raise .configError (setPhase .unconfigured s)) ∨
    (∃ data, i = .append data ∧ s.phase = .ready ∧ s' = respond .ok [] (appendBytes data s)) ∨
    (i = .finalize ∧ s.phase = .ready ∧ s' = respond .ok (digest (finishHash s)) (finishHash s)) ∨
    (∃ t0 t1, i = .setctr t0 t1 ∧ s.phase = .ready ∧ s' = respond .ok [] { s with t0 := t0, t1 := t1 }) ∨
    (((∃ data, i = .append data) ∨ i = .finalize ∨ ∃ t0 t1, i = .setctr t0 t1) ∧ s.phase ≠ .ready ∧
      s' = raise .misuse s) ∨
    (∃ h0 block t0 t1 last, i = .compress h0 block t0 t1 last ∧
      s' = respond .ok (leBytes (compress h0 block (t1 ++ t0) last)) s) ∨
    (i = .status ∧ s' = respond .ok (leBytes32 (statusWord s)) s) := by
  cases i with
  | setup nn kk key =>
    simp only [exec, execSetup] at h
    split at h <;> rename_i hv <;> cases h
    · exact .inl ⟨nn, kk, key, rfl, hv, rfl⟩
    · exact .inr (.inl ⟨nn, kk, key, rfl, by simpa using hv, rfl⟩)
  | append data =>
    simp only [exec, execAppend] at h
    rcases whenReady_cases h with ⟨hp, rfl⟩ | ⟨hp, rfl⟩
    · exact .inr (.inr (.inl ⟨data, rfl, hp, rfl⟩))
    · exact .inr (.inr (.inr (.inr (.inr (.inl ⟨.inl ⟨data, rfl⟩, hp, rfl⟩)))))
  | finalize =>
    simp only [exec, execFinalize] at h
    rcases whenReady_cases h with ⟨hp, rfl⟩ | ⟨hp, rfl⟩
    · exact .inr (.inr (.inr (.inl ⟨rfl, hp, rfl⟩)))
    · exact .inr (.inr (.inr (.inr (.inr (.inl ⟨.inr (.inl rfl), hp, rfl⟩)))))
  | compress h0 block t0 t1 last =>
    cases h
    exact .inr (.inr (.inr (.inr (.inr (.inr (.inl ⟨h0, block, t0, t1, last, rfl, rfl⟩))))))
  | setctr t0 t1 =>
    simp only [exec, execSetctr] at h
    rcases whenReady_cases h with ⟨hp, rfl⟩ | ⟨hp, rfl⟩
    · exact .inr (.inr (.inr (.inr (.inl ⟨t0, t1, rfl, hp, rfl⟩))))
    · exact .inr (.inr (.inr (.inr (.inr (.inl ⟨.inr (.inr ⟨t0, t1, rfl⟩), hp, rfl⟩)))))
  | status =>
    cases h
    exact .inr (.inr (.inr (.inr (.inr (.inr (.inr ⟨rfl, rfl⟩))))))

/-- A command neither reads nor writes what the host has sent after it. -/
theorem exec_withInbox {i : Instr} {s s' : State} (inb : List HostEvent) (h : exec i s = .next s') :
    exec i { s with inbox := inb } = .next { s' with inbox := inb } := by
  rcases exec_cases h with ⟨nn, kk, key, rfl, hv, rfl⟩ | ⟨nn, kk, key, rfl, hv, rfl⟩ | ⟨data, rfl, hp, rfl⟩ |
    ⟨rfl, hp, rfl⟩ | ⟨t0, t1, rfl, hp, rfl⟩ | ⟨hi, hp, rfl⟩ | ⟨h0, b, t0, t1, last, rfl, rfl⟩ | ⟨rfl, rfl⟩
  · simp only [exec, execSetup, hv, if_true]
    unfold loadKey
    split <;> rfl
  · simp only [exec, execSetup, hv, Bool.false_eq_true, if_false]; rfl
  · simp only [exec, execAppend]
    rw [whenReady_ready _ (by exact hp), appendBytes_withInbox]; rfl
  · simp only [exec, execFinalize]
    rw [whenReady_ready _ (by exact hp)]; rfl
  · simp only [exec, execSetctr]
    rw [whenReady_ready _ (by exact hp)]; rfl
  · rcases hi with ⟨data, rfl⟩ | rfl | ⟨t0, t1, rfl⟩ <;>
      simp only [exec, execAppend, execFinalize, execSetctr] <;>
      rw [whenReady_not_ready _ (by exact hp)] <;> rfl
  · rfl
  · rfl

/-- A command adds exactly one response, and an error carries no payload. -/
theorem exec_outbox {i : Instr} {s s' : State} (h : exec i s = .next s') :
    ∃ r, s'.outbox = s.outbox ++ [r] ∧ (r.code ≠ .ok → r.payload = []) := by
  rcases exec_cases h with ⟨nn, kk, key, rfl, hv, rfl⟩ | ⟨nn, kk, key, rfl, hv, rfl⟩ | ⟨data, rfl, hp, rfl⟩ |
    ⟨rfl, hp, rfl⟩ | ⟨t0, t1, rfl, hp, rfl⟩ | ⟨hi, hp, rfl⟩ | ⟨h0, b, t0, t1, last, rfl, rfl⟩ | ⟨rfl, rfl⟩
  all_goals exact ⟨_, by simp; rfl, by simp⟩

/-! Sequences of commands. -/

@[simp] theorem andThen_next (s : State) (k : State → Host.Outcome State Fault Refusal) :
    andThen (.next s) k = k s := rfl

@[simp] theorem andThen_fault (f : Fault) (k : State → Host.Outcome State Fault Refusal) :
    andThen (.fault f) k = .fault f := rfl

@[simp] theorem andThen_refused (r : Refusal) (k : State → Host.Outcome State Fault Refusal) :
    andThen (.refused r) k = .refused r := rfl

@[simp] theorem execAll_nil (s : State) : execAll [] s = .next s := rfl

@[simp] theorem execAll_cons (i : Instr) (is : List Instr) (s : State) :
    execAll (i :: is) s = andThen (exec i s) (execAll is) := rfl

theorem execAll_append (is js : List Instr) (s : State) :
    execAll (is ++ js) s = andThen (execAll is s) (execAll js) := by
  induction is generalizing s with
  | nil => rfl
  | cons i is ih =>
    simp only [List.cons_append, execAll_cons]
    obtain ⟨s', hs⟩ := exec_answers i s
    simp [hs, ih]

/-! The host's HASH (R72). -/

theorem hashSetup_of_le {key : List Byte} (nn : Byte) (h : key.length ≤ 255) :
    hashSetup key nn = some (.setup nn (BitVec.ofNat 8 key.length) (padTo 64 key)) := by
  simp [hashSetup, h]

theorem hashSetup_of_lt {key : List Byte} (nn : Byte) (h : 255 < key.length) : hashSetup key nn = none := by
  simp [hashSetup, h]

/-- Everything HASH can do: no header for its SETUP, or SETUP is performed and the host stops on its answer or goes
on (R72, R65). -/
theorem hostHash_cases (msg key : List Byte) (nn : Byte) (s : State) :
    (255 < key.length ∧ hostHash msg key nn s = .fault .hashKeyUnencodable) ∨
    (key.length ≤ 255 ∧ ∃ s', exec (.setup nn (BitVec.ofNat 8 key.length) (padTo 64 key)) s = .next s' ∧
      ((lastCode s' = some .configError ∧ hostHash msg key nn s = .fault .hashConfigError) ∨
       (lastCode s' ≠ some .configError ∧ hostHash msg key nn s = execAll (appendl msg ++ [.finalize]) s'))) := by
  rcases Nat.lt_or_ge 255 key.length with h | h
  · exact .inl ⟨h, by simp [hostHash, hashSetup_of_lt nn h]⟩
  · obtain ⟨s', hs⟩ := exec_answers (.setup nn (BitVec.ofNat 8 key.length) (padTo 64 key)) s
    refine .inr ⟨h, s', hs, ?_⟩
    by_cases hc : lastCode s' = some .configError <;> simp [hostHash, hashSetup_of_le nn h, hs, hc]

end Sys2Proof.Machine
end

