-- ==== Sys2Proof/Laws/Reference.lean ====
section
/-!
SUPPORT. The laws of the closed form: the chain of compressions one block at a time, and its independence of what
follows the blocks it has taken in.
-/

namespace Sys2Proof

open Machine

@[simp] theorem chain_zero (h : HashState) (input : List Byte) : chain h input 0 = h := by
  simp [chain]

/-- One more block (R109). -/
theorem chain_succ (h : HashState) (input : List Byte) (n : Nat) :
    chain h input (n + 1) =
      compress (chain h input n) (padTo 128 ((input.drop (128 * n)).take 128)) (BitVec.ofNat 128 (128 * (n + 1)))
        false := by
  unfold chain
  rw [List.range_succ, List.foldl_append, List.foldl_cons, List.foldl_nil]

/-- Blocks already taken in do not depend on what follows them. -/
theorem chain_append (h : HashState) (input data : List Byte) (n : Nat) (hn : 128 * n ≤ input.length) :
    chain h (input ++ data) n = chain h input n := by
  induction n with
  | zero => simp
  | succ n ih =>
    have same : ((input ++ data).drop (128 * n)).take 128 = (input.drop (128 * n)).take 128 := by
      rw [List.drop_append_of_le_length (by omega), List.take_append_of_le_length (by simp; omega)]
    rw [chain_succ, chain_succ, ih (by omega), same]

/-- The key block is one whole block (R104). -/
theorem inputOf_length (kk : Byte) (key : Vector Byte 64) (msg : List Byte) :
    (inputOf kk key msg).length = (if 0 < kk.toNat then 128 else 0) + msg.length := by
  unfold inputOf
  split <;> simp

end Sys2Proof
end

