-- ==== Sys2Proof/Laws/Step.lean ====
section
/-!
SUPPORT. Everything one step can do, said once.
-/

namespace Sys2Proof.Machine

theorem step_idle {s : State} (h : s.inbox = []) : step s = .next s := by
  simp [step, receive, h]

theorem step_event {s : State} {e : HostEvent} {rest : List HostEvent} (h : s.inbox = e :: rest) :
    step s = performEvent exec e { s with inbox := rest } := by
  simp [step, receive, h]

/-- The three ways a command's bytes are performed. -/
theorem step_command {s : State} {bytes : List Byte} {rest : List HostEvent}
    (h : s.inbox = .command bytes :: rest) :
    step s = performDecoded exec (decode bytes) { s with inbox := rest } := by
  rw [step_event h]; rfl

theorem step_reset {s : State} {rest : List HostEvent} (h : s.inbox = .reset :: rest) :
    step s = .next (applyReset { s with inbox := rest }) := by
  rw [step_event h]; rfl

/-- Where a step answers a next state, it did nothing for want of an event, performed a command, answered an illegal
header, or applied a reset. -/
theorem step_cases {s s' : State} (h : step s = .next s') :
    (s.inbox = [] ∧ s' = s) ∨
    (∃ bytes rest i, s.inbox = .command bytes :: rest ∧ decode bytes = .instr i ∧
      exec i { s with inbox := rest } = .next s') ∨
    (∃ bytes rest why, s.inbox = .command bytes :: rest ∧ decode bytes = .illegal why ∧
      s' = raise .badCmd { s with inbox := rest }) ∨
    (∃ rest, s.inbox = .reset :: rest ∧ s' = applyReset { s with inbox := rest }) := by
  rcases hin : s.inbox with _ | ⟨e, rest⟩
  · rw [step_idle hin] at h
    exact .inl ⟨rfl, by cases h; rfl⟩
  · cases e with
    | command bytes =>
      rw [step_command hin] at h
      cases hd : decode bytes with
      | instr i => rw [hd] at h; exact .inr (.inl ⟨bytes, rest, i, rfl, hd, h⟩)
      | illegal why => rw [hd] at h; cases h; exact .inr (.inr (.inl ⟨bytes, rest, why, rfl, hd, rfl⟩))
      | illFramed => rw [hd] at h; cases h
    | reset =>
      rw [step_reset hin] at h
      cases h
      exact .inr (.inr (.inr ⟨rest, rfl, rfl⟩))

/-- What `withFetchWord` places is what `step` performs next. -/
theorem step_withFetchWord (s : State) (nbits w : Nat) :
    step (s.withFetchWord nbits w) = performDecoded exec (decode (tableWordBytes nbits w)) s := by
  rw [step_command (rest := s.inbox) rfl]; rfl

end Sys2Proof.Machine
end

