-- ==== Sys2Proof/Tests/Slice0.lean ====
section
/-!
SUPPORT. Tests of single definitions and single steps, and a witness for every statement that has hypotheses. The
expected values are those of spec/95_test_vectors.md, whose section each test names.
-/

namespace Sys2Proof.Tests

open Machine

/-! ## Well-formedness -/

/-- The one check there is: `LEN` has 16 bits (R63), so 65535 bytes are a command and 65536 are not. -/
theorem test_append_length_bound :
    (Instr.append (List.replicate 65535 0)).WellFormed ∧ ¬ (Instr.append (List.replicate 65536 0)).WellFormed := by
  simp only [Instr.WellFormed, Instr.wellFormed, List.length_replicate]
  decide

/-! ## Decoding (§7: words written out from the encoding of R61, R62, R66) -/

/-- `SETUP 32, 32, key=00 00 …`: header bytes 20 00 20 10 and 64 payload bytes. -/
theorem test_decode_setup :
    decode ([0x20, 0x00, 0x20, 0x10] ++ List.replicate 64 0) = .instr (.setup 32 32 (Vector.replicate 64 0)) := by
  decide +kernel

/-- `APPEND "abc"`: 03 00 00 20, 61 62 63. -/
theorem test_decode_append : decode [0x03, 0x00, 0x00, 0x20, 0x61, 0x62, 0x63] = .instr (.append [0x61, 0x62, 0x63]) := by
  decide

/-- `FINALIZE`: 00 00 00 30. -/
theorem test_decode_finalize : decode [0x00, 0x00, 0x00, 0x30] = .instr .finalize := by decide

/-- `COMPRESS 1`: 01 00 00 40 and 208 bytes, of which byte 0 is the low byte of `h[0]`, byte 64 is `block[0]`, byte
192 the low byte of `t0` and byte 207 the high byte of `t1` (R63). -/
theorem test_decode_compress :
    decode ([0x01, 0x00, 0x00, 0x40] ++ (0xaa :: List.replicate 63 0) ++ (0xbb :: List.replicate 127 0) ++
        (0xcc :: List.replicate 14 0 ++ [0xdd])) =
      .instr (.compress ((Vector.replicate 8 0).set 0 0xaa) ((Vector.replicate 128 0).set 0 0xbb) 0xcc
        0xdd00000000000000 true) := by
  decide +kernel

/-- `SETCTR 0xffffffffffffff80, 0`: 00 00 00 50, 80 ff ff ff ff ff ff ff and eight zero bytes. -/
theorem test_decode_setctr :
    decode [0x00, 0x00, 0x00, 0x50, 0x80, 0xff, 0xff, 0xff, 0xff, 0xff, 0xff, 0xff, 0, 0, 0, 0, 0, 0, 0, 0] =
      .instr (.setctr 0xffffffffffffff80 0) := by
  decide

/-- `STATUS`: 00 00 00 60. -/
theorem test_decode_status : decode [0x00, 0x00, 0x00, 0x60] = .instr .status := by decide

/-- `.word 0x80000000` and `.word 0xf0000000` are illegal, with no payload. -/
theorem test_decode_reserved :
    decode [0x00, 0x00, 0x00, 0x80] = .illegal .reservedOpcode ∧
    decode [0x00, 0x00, 0x00, 0xf0] = .illegal .reservedOpcode := by
  decide

/-- The encoder writes the same bytes (§7). -/
theorem test_encode_words :
    encode (.append [0x61, 0x62, 0x63]) = [0x03, 0x00, 0x00, 0x20, 0x61, 0x62, 0x63] ∧
    encodeHeader (.setup 64 64 (Vector.replicate 64 0)) = 0x10400040 ∧
    encodeHeader (.compress (Vector.replicate 8 0) (Vector.replicate 128 0) 0 0 true) = 0x40000001 := by
  decide

/-- A row of the table given as a number: the header in bits 31..0, every bit above them zero. -/
theorem test_decode_table_word :
    decodeTableWord 32 0x30000000 = some .finalize ∧ decodeTableWord 32 0x20000003 = some (.append [0, 0, 0]) ∧
    decodeTableWord 32 0x50000000 = some (.setctr 0 0) ∧ decodeTableWord 32 0x70000000 = none := by
  decide

/-! ## Single operations -/

/-- `rotr64` (§3.1). -/
theorem test_rotr64 :
    rotr64 0x0123456789abcdef 32 = 0x89abcdef01234567 ∧ rotr64 0x0123456789abcdef 24 = 0xabcdef0123456789 ∧
    rotr64 0x0123456789abcdef 16 = 0xcdef0123456789ab ∧ rotr64 0x0123456789abcdef 63 = 0x02468acf13579bde := by
  decide

/-- G of 1, 2, 3, 4 with x = 5 and y = 6, in words 3, 4, 9 and 14 (§3.2). -/
theorem test_mixG :
    let v := mixG (((((Vector.replicate 16 0).set 3 1).set 4 2).set 9 3).set 14 4) 3 4 9 14 5 6
    v[3] = 0x0000010000000c0e ∧ v[4] = 0x181c021802181806 ∧ v[9] = 0x0c0e000c010c0003 ∧ v[14] = 0x0c0e0000010c0000 := by
  decide +kernel

/-- `ctr_add` (§4.1): a carry past zero, `T1` wrapping, and no carry for n = 0 at the top. -/
theorem test_ctrAdd :
    let run := fun (t0 t1 n : Word) =>
      let s := ctrAdd n { State.reset with t0 := t0, t1 := t1 }
      (s.t0, s.t1)
    run 0xffffffffffffffc0 0 128 = (0x40, 1) ∧ run 0xffffffffffffffff 0xffffffffffffffff 1 = (0, 0) ∧
    run 0xffffffffffffffff 0 0 = (0xffffffffffffffff, 0) := by
  decide

/-! ## Single steps, two a command -/

/-- A state in `Ready` with `NN` = 64, unkeyed, whose fill length is `c` and whose buffer holds zeros. -/
def ready (c : Fin 129) : State :=
  { State.reset with h := initHash 64 0, phase := .ready, nn := 64, c := c }

/-- The state with one command waiting. -/
def waiting (bytes : List Byte) (s : State) : State :=
  { s with inbox := [.command bytes] }

/-- The state a step answers, or the state itself where it stops. -/
def after (o : Host.Outcome State Fault Refusal) (s : State) : State :=
  match o with
  | .next t => t
  | .fault _ => s
  | .refused _ => s

/-- `SETUP 32, 32` from reset: STATUS 0x20208001 and `H[0]` 0x6a09e667f2bde928 (§4.2, §5.3). -/
theorem test_setup :
    let t := after (exec (.setup 32 32 (Vector.replicate 64 7)) State.reset) State.reset
    statusWord t = 0x20208001 ∧ t.h[0] = 0x6a09e667f2bde928 ∧ t.b[31] = 7 ∧ t.b[32] = 0 := by
  decide +kernel

/-- `SETUP 0, 0` during a computation: code 1, `C`, `NN` and `KK` as they were (§8, P5: 0x00200508). -/
theorem test_setup_config_error :
    let s := { ready 5 with nn := 32 }
    let t := after (exec (.setup 0 0 (Vector.replicate 64 0)) s) s
    statusWord t = 0x00200508 ∧ t.outbox = [⟨.configError, []⟩] := by
  decide +kernel

/-- `APPEND "abc"` onto an empty buffer: STATUS 0x00400301 (§8, P1). -/
theorem test_append :
    let t := after (exec (.append [0x61, 0x62, 0x63]) (ready 0)) (ready 0)
    statusWord t = 0x00400301 ∧ t.b.toList.take 3 = [0x61, 0x62, 0x63] ∧ t.h = initHash 64 0 := by
  decide +kernel

/-- One byte more than 128 onto a buffer full of the first 128 bytes of zeros: `C` = 1 and `T` = 128 (§5.2, row
128, 1). -/
theorem test_append_full :
    let t := after (exec (.append [0x80]) (ready 128)) (ready 128)
    t.c = 1 ∧ t.t0 = 128 ∧ t.t1 = 0 ∧ t.b[0] = 0x80 := by
  decide +kernel

/-- FINALIZE of "abc" with `NN` = 1: the one byte 6b (§5.1, K7), and STATUS of a finished computation. -/
theorem test_finalize :
    let s := { ready 3 with h := initHash 1 0, nn := 1, b := padTo 128 [0x61, 0x62, 0x63] }
    let t := after (exec .finalize s) s
    t.outbox = [⟨.ok, [0x6b]⟩] ∧ statusWord t = 0x00018002 ∧ t.t0 = 3 := by
  decide +kernel

/-- FINALIZE from reset is answered MISUSE: STATUS 0x00000004 (§6.1). -/
theorem test_finalize_misuse :
    let t := after (exec .finalize State.reset) State.reset
    statusWord t = 0x00000004 ∧ t.outbox = [⟨.misuse, []⟩] := by
  decide +kernel

/-- COMPRESS 0 of zeros with `t1` = 1, from reset: the response's first and last bytes (§3.5, row 3). -/
theorem test_compress_t1 :
    let t := after (exec (.compress (Vector.replicate 8 0) (Vector.replicate 128 0) 0 1 false) State.reset) State.reset
    t.outbox.map (fun r => (r.code, r.payload.take 4, r.payload.drop 60)) =
      [(.ok, [0x16, 0xde, 0x3f, 0x13], [0xef, 0x74, 0x54, 0xbb])] := by
  decide +kernel

/-- COMPRESS 0 of 128 bytes ff (§3.5, row 5). -/
theorem test_compress_ones :
    let t := after (exec (.compress (Vector.replicate 8 0) (Vector.replicate 128 0xff) 0 0 false) State.reset)
      State.reset
    t.outbox.map (fun r => (r.payload.take 4, r.payload.drop 60)) =
      [([0x2f, 0x91, 0x85, 0xde], [0x4e, 0x8b, 0x55, 0x76])] := by
  decide +kernel

/-- `SETCTR 0xffffffffffffff80, 0` in `Ready`: STATUS is the same, 0x00400001 (§8, P3). -/
theorem test_setctr :
    let t := after (exec (.setctr 0xffffffffffffff80 0) (ready 0)) (ready 0)
    t.t0 = 0xffffffffffffff80 ∧ t.t1 = 0 ∧ statusWord t = 0x00400001 := by
  decide +kernel

/-- SETCTR from reset is answered MISUSE (§6.1). -/
theorem test_setctr_misuse :
    (after (exec (.setctr 0 0) State.reset) State.reset).outbox = [⟨.misuse, []⟩] := by
  decide

/-- STATUS in `Ready` with `NN` = 32, `KK` = 32 and `C` = 100: bytes 01 64 20 20 (§6.3). -/
theorem test_status :
    (after (exec .status { ready 100 with nn := 32, kk := 32 }) (ready 100)).outbox =
      [⟨.ok, [0x01, 0x64, 0x20, 0x20]⟩] := by
  decide

/-- STATUS in `Finalized` with all three flags set: bytes 1e 80 40 00 (§6.3). -/
theorem test_status_flags :
    let s : State :=
      { ready 128 with phase := .finalized, misuseSeen := true, configSeen := true, badcmdSeen := true }
    (after (exec .status s) s).outbox = [⟨.ok, [0x1e, 0x80, 0x40, 0x00]⟩] := by
  decide

/-- The instruction that `withFetchWord` places is the one the very next step performs, from reset. -/
theorem test_step_withFetchWord :
    (after (step (State.reset.withFetchWord 32 0x60000000)) State.reset).outbox = [⟨.ok, [0, 0, 0, 0]⟩] := by
  decide

/-- `.word 0x20010000` outside `Ready` is BADCMD, not MISUSE (§6.1). -/
theorem test_step_badcmd :
    (after (step (waiting [0x00, 0x00, 0x01, 0x20] State.reset)) State.reset).outbox = [⟨.badCmd, []⟩] := by
  decide

/-- A header with too few payload bytes is no command and no BADCMD (R74). -/
theorem test_step_ill_framed : step (waiting [0x03, 0x00, 0x00, 0x20, 0x61] State.reset) = .refused .illFramed := by
  rfl

/-! ## Witnesses: for each statement that has hypotheses, values that meet all of them, at the ends of the ranges -/

theorem witness_EncodedCommandDecodesToItself :
    (Instr.append (List.replicate 65535 0)).WellFormed ∧ (Instr.append []).WellFormed ∧
    (Instr.setup 255 255 (Vector.replicate 64 0xff)).WellFormed ∧ Instr.status.WellFormed :=
  ⟨test_append_length_bound.1, rfl, rfl, rfl⟩

theorem witness_DecodedCommandIsEncodedByItsBytes :
    decode [0x01, 0x00, 0x00, 0x20, 0x78] = .instr (.append [0x78]) := by decide

/-- One header for each case (a) to (f), and a legal one. -/
theorem witness_HeaderIsIllegalExactlyWhenReserved :
    ReservedHeader 0x00000000 ∧ ReservedHeader 0x70000000 ∧ ReservedHeader 0xffffffff ∧ ReservedHeader 0x11400000 ∧
    ReservedHeader 0x10400100 ∧ ReservedHeader 0x20010000 ∧ ReservedHeader 0x40000002 ∧ ReservedHeader 0x40010000 ∧
    ReservedHeader 0x30000001 ∧ ReservedHeader 0x50010000 ∧ ReservedHeader 0x60008000 ∧ ¬ ReservedHeader 0x10ff00ff := by
  refine ⟨?_, ?_, ?_, ?_, ?_, ?_, ?_, ?_, ?_, ?_, ?_, ?_⟩ <;> simp only [ReservedHeader] <;> decide

theorem witness_HeaderMatchesItsOneRowOrIsIllegal :
    (∃ row ∈ opcodeTable, (0x2000ffff : Header) &&& row.mask = row.pattern ∧ row.mnemonic = .append) ∧
    (∃ row ∈ opcodeTable, (0x40000001 : Header) &&& row.mask = row.pattern ∧ row.mnemonic = .compress) ∧
    ReservedHeader 0x40000003 := by
  simp only [ReservedHeader]
  decide

theorem witness_StreamIsCutAfterItsFirstCommand :
    WellFramed [0x02, 0x00, 0x00, 0x20, 0x61, 0x62] ∧ WellFramed [0x00, 0x00, 0x00, 0x00] :=
  ⟨⟨0x20000002, [0x61, 0x62], by decide, by decide⟩, ⟨0, [], by decide, by decide⟩⟩

theorem witness_StepRunsTheDecodedCommand :
    (waiting [0x00, 0x00, 0x00, 0x30] (ready 0)).inbox = [.command [0x00, 0x00, 0x00, 0x30]] ∧
    decode [0x00, 0x00, 0x00, 0x30] = .instr .finalize := by
  decide

/-- An APPEND with `A ≠ 0`, which owes `LEN` bytes, and a reserved opcode, which owes none. -/
theorem witness_IllegalHeaderIsAnsweredBadcmd :
    (ReservedHeader 0x20010002 ∧ [0x61, 0x62].length = owedLength 0x20010002 ∧
      (waiting (leBytes32 0x20010002 ++ [0x61, 0x62]) (ready 0)).inbox =
        [.command (leBytes32 0x20010002 ++ [0x61, 0x62])]) ∧
    ReservedHeader 0xf2000005 ∧ ([] : List Byte).length = owedLength 0xf2000005 := by
  simp only [ReservedHeader]
  decide

/-- Both sides of the equivalence are met: an ill-framed command, and a well-framed one. -/
theorem witness_OnlyIllFramedCommandsStopTheCore :
    step (waiting [0x00, 0x00, 0x00] (ready 0)) = .refused .illFramed ∧
    step (waiting [0x00, 0x00, 0x00, 0x30, 0x00] (ready 0)) = .refused .illFramed ∧
    ∃ t, step (waiting [0x00, 0x00, 0x00, 0x60] (ready 0)) = .next t :=
  ⟨rfl, rfl, _, rfl⟩

theorem witness_EveryCommandGetsOneResponse :
    ∃ t, step (waiting [0x00, 0x00, 0x00, 0x30] State.reset) = .next t ∧ t.outbox = [⟨.misuse, []⟩] :=
  ⟨_, rfl, by decide⟩

/-- Both conclusions have a case: a step that goes on, and one that is refused. -/
theorem witness_EarlyCommandIsHeld :
    (waiting [0x00, 0x00, 0x00, 0x60] State.reset).inbox ≠ [] ∧
    (∃ t, step (waiting [0x00, 0x00, 0x00, 0x60] State.reset) = .next t) ∧
    step (waiting [0x00] State.reset) = .refused .illFramed :=
  ⟨by decide, ⟨_, rfl⟩, rfl⟩

theorem witness_ResetAppliesTheResetValues :
    ({ ready 128 with phase := .finalized, misuseSeen := true, inbox := [.reset] } : State).inbox = [.reset] := rfl

theorem witness_RotationMovesEachBit :
    (0 < 1 ∧ 1 < 64 ∧ 0 < 64) ∧ (0 < 63 ∧ 63 < 64 ∧ 63 < 64) ∧ (rotr64 1 63).getLsbD 1 = true := by decide

theorem witness_MixingOperationFollowsItsEightSteps :
    ([0, 4, 8, 12] : List (Fin 16)).Nodup ∧ (15 : Fin 16) ∉ ([0, 4, 8, 12] : List (Fin 16)) := by decide

theorem witness_DisjointMixingOperationsCommute :
    ([0, 4, 8, 12, 3, 7, 11, 15] : List (Fin 16)).Nodup := by decide

/-- Counters that agree in one word and differ in the other, and an index that is neither 12 nor 13. -/
theorem witness_FlagAndCounterEnterThroughTheirOwnWords :
    (14 : Fin 16) ≠ 12 ∧ (14 : Fin 16) ≠ 13 ∧ (1 : Counter).extractLsb' 64 64 = (0 : Counter).extractLsb' 64 64 ∧
    (1 : Counter).extractLsb' 0 64 ≠ (0 : Counter).extractLsb' 0 64 := by decide

/-- `NN` and `KK` at both ends of their ranges, without a key and with one. -/
theorem witness_SetupStartsAComputation :
    (1 ≤ (1 : Byte).toNat ∧ (1 : Byte).toNat ≤ 64 ∧ (0 : Byte).toNat ≤ 64) ∧
    (1 ≤ (64 : Byte).toNat ∧ (64 : Byte).toNat ≤ 64 ∧ (64 : Byte).toNat ≤ 64 ∧ (64 : Byte) ≠ 0) := by decide

/-- Each of the three ways to be out of range, at its nearest value. -/
theorem witness_SetupOutOfRangeIsConfigError :
    (0 : Byte).toNat < 1 ∧ 64 < (65 : Byte).toNat ∧ configValid 0 0 = false ∧ configValid 65 0 = false ∧
    configValid 64 65 = false := by decide

theorem witness_KeyIsTheFirstBlockOfTheInput :
    (1 ≤ (64 : Byte).toNat ∧ (64 : Byte).toNat ≤ 64 ∧ 1 ≤ (1 : Byte).toNat ∧ (1 : Byte).toNat ≤ 64) ∧
    1 ≤ (64 : Byte).toNat ∧ (64 : Byte).toNat ≤ 64 := by decide

theorem witness_SetupForgetsThePast :
    1 ≤ (20 : Byte).toNat ∧ (20 : Byte).toNat ≤ 64 ∧ (16 : Byte).toNat ≤ 64 := by decide

/-- Both clauses: a full buffer, and one with room for one byte. -/
theorem witness_AppendOneByteFollowsItsRule :
    (ready 128).phase = .ready ∧ (ready 128).c.val = 128 ∧ (ready 127).phase = .ready ∧ (ready 127).c.val < 128 ∧
    (3 : Fin 128) ≠ 0 := by decide

theorem witness_AppendFillAndCounterFollowTheCount : (ready 127).phase = .ready ∧ (ready 128).phase = .ready := by
  decide

theorem witness_AppendOfNothingChangesNothing : (ready 128).phase = .ready := rfl

/-- Nothing onto a full buffer, one byte onto 127, 128 bytes onto an empty buffer. -/
theorem witness_AppendWithinTheBufferOnlyStages :
    (ready 128).phase = .ready ∧ (ready 128).c.val + ([] : List Byte).length ≤ 128 ∧
    (ready 127).c.val + [(0x78 : Byte)].length ≤ 128 ∧
    (ready 0).c.val + (List.replicate 128 (0x78 : Byte)).length ≤ 128 := by
  simp [ready]

theorem witness_SplittingAMessageDoesNotMatter : (ready 100).phase = .ready := rfl

theorem witness_FinalizeCompressesTheLastBlock :
    (ready 0).phase = .ready ∧ (ready 0).c.val = 0 ∧ (ready 128).phase = .ready ∧ (ready 128).c.val = 128 := by decide

theorem witness_DigestBytesComeFromTheFinalState :
    (ready 3).phase = .ready ∧ (ready 3).nn.toNat ≤ 64 ∧ 8 * (7 : Fin 8).val + (7 : Fin 8).val < (ready 3).nn.toNat := by
  decide

theorem witness_StatusAndCompressCanBeRepeated :
    Instr.status = .status ∨ ∃ h block t0 t1 last, Instr.status = .compress h block t0 t1 last := .inl rfl

theorem witness_SetctrOverwritesTheCounter : (ready 128).phase = .ready := rfl

theorem witness_InjectedCounterCarriesOnce :
    (ready 0).phase = .ready ∧ (ready 0).c.val + (List.replicate 129 (0 : Byte)).length ≤ 256 ∧
    128 < (ready 0).c.val + (List.replicate 129 (0 : Byte)).length ∧
    (ready 128).c.val + (List.replicate 128 (0 : Byte)).length ≤ 256 := by
  simp [ready]

/-- Both phases that are not `Ready`. -/
theorem witness_CommandsOutsideReadyAreMisuse :
    State.reset.phase ≠ .ready ∧ ({ ready 128 with phase := .finalized } : State).phase ≠ .ready := by decide

/-- One step for each error code. -/
theorem witness_ErrorsLeaveNoPartialEffect :
    (∃ t, step (waiting [0x00, 0x00, 0x00, 0x30] State.reset) = .next t ∧ t.outbox = [] ++ [⟨.misuse, []⟩]) ∧
    (∃ t, step (waiting [0x01, 0x00, 0x00, 0x30] (ready 5)) = .next t ∧ t.outbox = [] ++ [⟨.badCmd, []⟩]) ∧
    ∃ t, step (waiting ([0x41, 0x00, 0x40, 0x10] ++ List.replicate 64 0) (ready 5)) = .next t ∧
      t.outbox = [] ++ [⟨.configError, []⟩] := by
  refine ⟨⟨_, rfl, by decide⟩, ⟨_, rfl, by decide⟩, ⟨_, rfl, by decide +kernel⟩⟩

/-- A step for each code, and a reset. -/
theorem witness_StickyFlagsRecordTheErrors :
    (∃ t, step (waiting ([0x00, 0x00, 0x00, 0x10] ++ List.replicate 64 0) (ready 1)) = .next t ∧
      t.outbox = [] ++ [⟨.configError, []⟩]) ∧
    (∃ t, step (waiting [0x00, 0x00, 0x00, 0x20] State.reset) = .next t ∧ t.outbox = [] ++ [⟨.misuse, []⟩]) ∧
    (∃ t, step (waiting [0x00, 0x00, 0x00, 0x20] (ready 1)) = .next t ∧ t.outbox = [] ++ [⟨.ok, []⟩]) ∧
    (∃ t, step (waiting [0x00, 0x00, 0x00, 0x70] State.reset) = .next t ∧ t.outbox = [] ++ [⟨.badCmd, []⟩]) ∧
    ∃ t, step { ready 5 with misuseSeen := true, inbox := [.reset] } = .next t :=
  ⟨⟨_, rfl, by decide +kernel⟩, ⟨_, rfl, by decide⟩, ⟨_, rfl, by decide⟩, ⟨_, rfl, by decide⟩, ⟨_, rfl⟩⟩

theorem witness_StickyFlagsDoNotStopTheCore :
    Instr.finalize ≠ .status ∧ ∃ t, exec .finalize State.reset = .next t := ⟨by decide, _, rfl⟩

/-- One event for each row of the table: reset, SETUP in and out of range, FINALIZE in and outside `Ready`, another
command, and an illegal header. -/
theorem witness_PhaseFollowsItsTransitions :
    (∃ t, step { ready 5 with inbox := [.reset] } = .next t) ∧
    (∃ t, step (waiting ([0x00, 0x00, 0x40, 0x10] ++ List.replicate 64 0) State.reset) = .next t ∧ t.phase = .ready) ∧
    (∃ t, step (waiting ([0x00, 0x00, 0x41, 0x10] ++ List.replicate 64 0) (ready 5)) = .next t ∧
      t.phase = .unconfigured) ∧
    (∃ t, step (waiting [0x00, 0x00, 0x00, 0x30] (ready 5)) = .next t ∧ t.phase = .finalized) ∧
    (∃ t, step (waiting [0x00, 0x00, 0x00, 0x30] State.reset) = .next t ∧ t.phase = .unconfigured) ∧
    (∃ t, step (waiting [0x00, 0x00, 0x00, 0x60] (ready 5)) = .next t ∧ t.phase = .ready) ∧
    ∃ t, step (waiting [0x00, 0x00, 0x00, 0x00] (ready 5)) = .next t ∧ t.phase = .ready := by
  refine ⟨⟨_, rfl⟩, ⟨_, rfl, by decide +kernel⟩, ⟨_, rfl, by decide +kernel⟩, ⟨_, rfl, rfl⟩, ⟨_, rfl, rfl⟩,
    ⟨_, rfl, rfl⟩, ⟨_, rfl, rfl⟩⟩

/-- Every constructor answers a next state. -/
theorem witness_CommandsWriteOnlyTheirRegisters :
    (∃ t, exec (.setup 64 0 (Vector.replicate 64 0)) (ready 5) = .next t) ∧
    (∃ t, exec (.append [1]) (ready 5) = .next t) ∧ (∃ t, exec .finalize (ready 5) = .next t) ∧
    (∃ t, exec (.compress (Vector.replicate 8 0) (Vector.replicate 128 0) 0 0 true) (ready 5) = .next t) ∧
    (∃ t, exec (.setctr 1 2) (ready 5) = .next t) ∧ ∃ t, exec .status (ready 5) = .next t :=
  ⟨⟨_, rfl⟩, ⟨_, rfl⟩, ⟨_, rfl⟩, ⟨_, rfl⟩, ⟨_, rfl⟩, ⟨_, rfl⟩⟩

theorem witness_EveryStepKeepsTheInvariant :
    Inv (waiting [0x00, 0x00, 0x00, 0x30] (ready 3)) ∧
    ∃ t, step (waiting [0x00, 0x00, 0x00, 0x30] (ready 3)) = .next t :=
  ⟨⟨by decide, by decide, fun _ => by decide, nofun, nofun⟩, _, rfl⟩

/-- A state that has taken in nothing, and a state that has taken in a full block and not yet compressed it. -/
theorem witness_HasherTakesInExactlyItsInput :
    AbsorbedBy (initHash 64 0) [] (ready 0) ∧ AbsorbedBy (initHash 64 0) (List.replicate 128 0) (ready 128) ∧
    (∃ t, exec (.append [1]) (ready 128) = .next t) ∧
    ∃ t, exec (.setup 64 64 (Vector.replicate 64 0)) State.reset = .next t := by
  refine ⟨⟨rfl, ?_, rfl, rfl, rfl⟩, ⟨rfl, ?_, ?_, ?_, ?_⟩, ⟨_, rfl⟩, ⟨_, rfl⟩⟩
  · simp [ready, doneBlocks, chain]
  · simp [ready, doneBlocks, chain]
  · simp [ready, doneBlocks, counter, State.reset]
  · simp [ready, doneBlocks]
  · simp [ready, doneBlocks, State.reset]

theorem witness_ComputationReturnsTheReferenceDigest :
    1 ≤ (32 : Byte).toNat ∧ (32 : Byte).toNat ≤ 64 ∧ (0 : Byte).toNat ≤ 64 ∧ (64 : Byte).toNat ≤ 64 := by decide

theorem witness_EdgeCasesCompressAsTheirRulesSay :
    (1 ≤ (1 : Byte).toNat ∧ (1 : Byte).toNat ≤ 64) ∧ (1 ≤ (64 : Byte).toNat ∧ (64 : Byte).toNat ≤ 64) := by decide

theorem witness_RunPerformsCommandsInIssueOrder :
    ∀ i ∈ [Instr.setup 64 0 (Vector.replicate 64 0), .append [0x61], .finalize, .status], i.WellFormed := by
  simp [Instr.WellFormed, Instr.wellFormed]

/-- Two different states that are alike: outside `Ready` in a register no command reads, in `Ready` in a stale byte. -/
theorem witness_StepKeepsStatesAlike :
    Alike State.reset { State.reset with t0 := 1 } ∧
    Alike (ready 0) { ready 0 with b := Vector.replicate 128 1 } :=
  ⟨⟨rfl, rfl, rfl, rfl, rfl, rfl, rfl, rfl, rfl, rfl, fun _ => rfl, nofun, nofun⟩,
   ⟨rfl, rfl, rfl, rfl, rfl, rfl, rfl, rfl, rfl, rfl, fun _ => rfl, fun _ => rfl, fun _ => rfl⟩⟩

/-- A step of each kind: MISUSE, BADCMD, and OK. -/
theorem witness_ContractFaultsExactlyOnMisuseAndBadcmd :
    (∃ t, step (waiting [0x00, 0x00, 0x00, 0x30] State.reset) = .next t ∧ t.outbox = [] ++ [⟨.misuse, []⟩]) ∧
    (∃ t, step (waiting [0x00, 0x00, 0x00, 0x00] State.reset) = .next t ∧ t.outbox = [] ++ [⟨.badCmd, []⟩]) ∧
    ∃ t, step (waiting [0x00, 0x00, 0x00, 0x60] State.reset) = .next t ∧ t.outbox = [] ++ [⟨.ok, [0, 0, 0, 0]⟩] :=
  ⟨⟨_, rfl, by decide⟩, ⟨_, rfl, by decide⟩, ⟨_, rfl, by decide⟩⟩

theorem witness_ClearFlagsShowACleanRun :
    HostEvent.reset ∉ (waiting [0x00, 0x00, 0x00, 0x60] (ready 3)).inbox ∧
    ∃ t, Sys2Proof.core.run 1 (waiting [0x00, 0x00, 0x00, 0x60] (ready 3)) = .next t ∧ Clean t :=
  ⟨by decide, _, rfl, rfl, rfl⟩

theorem witness_AppendlIsOneLongAppend : (ready 0).phase = .ready := rfl

/-- Each clause at the ends of its range: a key of 64 bytes is in range; keys of 65 and 255 bytes, and a digest of 0
bytes, are not; a key of 256 bytes has no header. -/
theorem witness_HashReturnsTheDigestOrReportsTheError :
    (1 ≤ (64 : Byte).toNat ∧ (64 : Byte).toNat ≤ 64 ∧ (List.replicate 64 (0 : Byte)).length ≤ 64) ∧
    (¬ (List.replicate 65 (0 : Byte)).length ≤ 64 ∧ (List.replicate 65 (0 : Byte)).length ≤ 255) ∧
    (¬ (List.replicate 255 (0 : Byte)).length ≤ 64 ∧ (List.replicate 255 (0 : Byte)).length ≤ 255) ∧
    (¬ 1 ≤ (0 : Byte).toNat ∧ ([] : List Byte).length ≤ 255) ∧ 255 < (List.replicate 256 (0 : Byte)).length := by
  simp only [List.length_replicate, List.length_nil]
  decide

theorem witness_CoresOfAPlatformAreIndependent :
    (0 : Nat) ≠ 1 ∧ ∃ p, platformStep 0 ⟨[State.reset, ready 3]⟩ = some p := ⟨by decide, _, rfl⟩

end Sys2Proof.Tests
end

section
/-!
PROOF. The value of a little-endian word (00_scope.md R10, 20_memory.md R41 a).
-/

namespace Sys2Proof.Machine

/-- Nothing carries in a concatenation: the high part counts in units of `2 ^ m`. -/
theorem toNat_append_eq_add {n m : Nat} (hi : BitVec n) (lo : BitVec m) :
    (hi ++ lo).toNat = lo.toNat + 2 ^ m * hi.toNat := by
  rw [BitVec.toNat_append, ← Nat.shiftLeft_add_eq_or_of_lt lo.isLt, Nat.shiftLeft_eq, Nat.add_comm, Nat.mul_comm]

/-- The bytes of `le64(s, k)` are its digits in base 256, the least significant first (R10). -/
theorem le64_toNat_eq_ofDigits (s : List Byte) (k : Nat) :
    (le64 s k).toNat = Nat.ofDigits (2 ^ 8) ((List.range 8).map fun j => (s.getD (8 * k + j) 0).toNat) := by
  have bytes : List.range 8 = [0, 1, 2, 3, 4, 5, 6, 7] := rfl
  simp only [le64, toNat_append_eq_add, bytes, List.map_cons, List.map_nil, Nat.ofDigits_cons, Nat.ofDigits_nil,
    Nat.mul_zero, Nat.add_zero]

theorem ofDigits_map_range_eq_sum (b : Nat) (digit : Nat → Nat) (n : Nat) :
    Nat.ofDigits b ((List.range n).map digit) = ((List.range n).map fun j => digit j * b ^ j).sum := by
  induction n with
  | zero => rfl
  | succ n ih => simp [List.range_succ, Nat.ofDigits_append, ih, Nat.mul_comm]

/-- Settles O7: the word is the number whose digits in base `2 ^ 8` are its bytes, and such a number is the sum of its
digits times powers of the base. -/
theorem littleEndianWordIsTheSumOfItsBytes : Obligations.LittleEndianWordIsTheSumOfItsBytes := by
  intro s k
  simp only [le64_toNat_eq_ofDigits, ofDigits_map_range_eq_sum, Nat.pow_mul]

end Sys2Proof.Machine
end

section
/-!
PROOF. The rules of the counter and the staging buffer, and the STATUS word bit by bit (10_state.md R22, R23, R28;
41_hasher.md R102, R105).
-/

namespace Sys2Proof.Machine

/-- The carry test of `ctr_add` finds every carry and no other: it is addition modulo 2^128 (R102). -/
theorem counter_ctrAdd (n : Word) (s : State) : counter (ctrAdd n s) = counter s + n.setWidth 128 := by
  have low := s.t0.isLt
  have high := s.t1.isLt
  have amount := n.isLt
  have one : (1 : Word).toNat = 1 := rfl
  apply BitVec.eq_of_toNat_eq
  simp only [counter, ctrAdd_t0, ctrAdd_t1, toNat_append_eq_add, BitVec.toNat_add, BitVec.toNat_setWidth]
  split <;> rename_i carry <;> simp only [BitVec.lt_def, BitVec.toNat_add] at carry
  · rw [BitVec.toNat_add, one]
    omega
  · omega

theorem c_lt_of_ne_full {s : State} (h : s.c ≠ 128) : s.c.val < 128 := by
  have : s.c.val ≠ 128 := fun hv => h (Fin.ext hv)
  omega

theorem placeByte_c_val (x : Byte) {s : State} (h : s.c.val < 128) : (placeByte x s).c.val = s.c.val + 1 := by
  rw [placeByte_c, Fin.val_add]
  exact Nat.mod_eq_of_lt (by simp; omega)

/-- A placed byte is staged behind those that are there (R105). -/
theorem placeByte_staged (x : Byte) {s : State} (h : s.c.val < 128) :
    (placeByte x s).b.toList.take (placeByte x s).c.val = s.b.toList.take s.c.val ++ [x] := by
  rw [placeByte_c_val x h, placeByte_b]
  apply List.ext_getElem
  · simp; omega
  · intro j hj _
    have hle : j ≤ s.c.val := by simp at hj; omega
    rcases hle.lt_or_eq with hlt | rfl
    · simp [List.getElem_append, hlt, hlt.ne']
      omega
    · simp

/-- A full buffer is staged whole. -/
theorem staged_of_full {s : State} (h : s.c = 128) : s.b.toList.take s.c.val = s.b.toList := by
  rw [h]
  exact List.take_of_length_le (by simp)

theorem ofNat32_eq_setWidth {n : Nat} (h : n ≤ 128) : BitVec.ofNat 32 n = (BitVec.ofNat 8 n).setWidth 32 := by
  apply BitVec.eq_of_toNat_eq
  simp
  omega

/-- The STATUS word is its fields side by side, from `KK` down to `PHASE` (R28). -/
theorem statusWord_getLsbD (s : State) (i : Nat) (hi : i < 32) :
    (statusWord s).getLsbD i =
      if i < 2 then (phaseCode s.phase).getLsbD i
      else if i = 2 then s.misuseSeen else if i = 3 then s.configSeen else if i = 4 then s.badcmdSeen
      else if i < 8 then false
      else if i < 16 then (BitVec.ofNat 8 s.c.val).getLsbD (i - 8)
      else if i < 24 then s.nn.getLsbD (i - 16) else s.kk.getLsbD (i - 24) := by
  rw [statusWord, ofNat32_eq_setWidth (Nat.le_of_lt_succ s.c.isLt)]
  simp only [BitVec.getLsbD_or, BitVec.getLsbD_shiftLeft, BitVec.getLsbD_setWidth, BitVec.getLsbD_ofBool]
  interval_cases i <;> simp

theorem statusWord_field (s : State) (start : Nat) {width : Nat} (v : BitVec width)
    (bits : ∀ j < width, (statusWord s).getLsbD (start + j) = v.getLsbD j) :
    (statusWord s).extractLsb' start width = v := by
  apply BitVec.eq_of_getLsbD_eq
  intro j hj
  simp [hj, bits j hj]

/-- Settles O37: each field is read off the word's bits. -/
theorem statusWordHoldsItsFields : Obligations.StatusWordHoldsItsFields := by
  intro s
  refine ⟨statusWord_field s 0 _ ?_, statusWord_getLsbD s 2 (by decide), statusWord_getLsbD s 3 (by decide),
    statusWord_getLsbD s 4 (by decide), statusWord_field s 5 _ ?_, statusWord_field s 8 _ ?_,
    statusWord_field s 16 _ ?_, statusWord_field s 24 _ ?_⟩
  all_goals
    intro j hj
    rw [statusWord_getLsbD s _ (by omega)]
    simp (disch := omega) only [if_pos, if_neg, Nat.zero_add, Nat.add_sub_cancel_left]
  simp

end Sys2Proof.Machine
end

section
/-!
PROOF. What the answers of all commands have in common, and what each command writes (10_state.md R20, R25 to R27).
-/

namespace Sys2Proof.Machine

theorem configValid_iff (nn kk : Byte) :
    configValid nn kk = true ↔ 1 ≤ nn.toNat ∧ nn.toNat ≤ 64 ∧ kk.toNat ≤ 64 := by
  simp [configValid]

/-- Every command ends the same way: it writes some of the hasher's registers, sets the sticky flag of its answer's code
(an OK answer has none), and answers (R27, R144). -/
theorem exec_eq_respond_setSticky {i : Instr} {s s' : State} (h : exec i s = .next s') :
    ∃ (code : RespCode) (payload : List Byte) (t : State), s' = respond code payload (setSticky code t) ∧
      code ≠ .badCmd ∧
      t = { s with h := t.h, t0 := t.t0, t1 := t.t1, b := t.b, c := t.c, nn := t.nn, kk := t.kk, phase := t.phase } := by
  rcases exec_cases h with ⟨nn, kk, key, rfl, hv, rfl⟩ | ⟨nn, kk, key, rfl, hv, rfl⟩ | ⟨data, rfl, hp, rfl⟩ |
    ⟨rfl, hp, rfl⟩ | ⟨t0, t1, rfl, hp, rfl⟩ | ⟨hi, hp, rfl⟩ | ⟨h0, b, t0, t1, last, rfl, rfl⟩ | ⟨rfl, rfl⟩
  · exact ⟨.ok, [], _, rfl, nofun, by apply State.ext_fields <;> simp⟩
  · exact ⟨.configError, [], _, rfl, nofun, rfl⟩
  · exact ⟨.ok, [], appendBytes data s, rfl, nofun, by apply State.ext_fields <;> simp⟩
  · exact ⟨.ok, _, finishHash s, rfl, nofun, by apply State.ext_fields <;> simp⟩
  · exact ⟨.ok, [], _, rfl, nofun, rfl⟩
  · exact ⟨.misuse, [], _, rfl, nofun, rfl⟩
  · exact ⟨.ok, _, _, rfl, nofun, rfl⟩
  · exact ⟨.ok, _, _, rfl, nofun, rfl⟩

/-- The flags after a command are those before it, and the one of its response's code (R27, R144). -/
theorem exec_flags {i : Instr} {s s' : State} {r : Response} (h : exec i s = .next s')
    (hr : s'.outbox = s.outbox ++ [r]) :
    s'.misuseSeen = (s.misuseSeen || r.code == .misuse) ∧
    s'.configSeen = (s.configSeen || r.code == .configError) ∧
    s'.badcmdSeen = (s.badcmdSeen || r.code == .badCmd) := by
  obtain ⟨code, payload, t, rfl, -, ht⟩ := exec_eq_respond_setSticky h
  rw [ht] at hr
  obtain rfl : ⟨code, payload⟩ = r := by simpa using hr
  rw [ht]
  simp

/-- Settles O44: a decoded command by `exec_flags`; an illegal header is raised, a reset clears the flags. -/
theorem stickyFlagsRecordTheErrors : Obligations.StickyFlagsRecordTheErrors := by
  refine ⟨fun s s' bytes rest r hin hstep hr => ?_, fun s s' rest hin hstep => ?_⟩
  · rw [step_command hin] at hstep
    cases hd : decode bytes with
    | instr i =>
      rw [hd] at hstep
      exact exec_flags (s := { s with inbox := rest }) hstep hr
    | illegal why =>
      rw [hd] at hstep
      cases hstep
      obtain rfl : ⟨.badCmd, []⟩ = r := by simpa using hr
      simp
    | illFramed =>
      rw [hd] at hstep
      cases hstep
  · rw [step_reset hin] at hstep
    cases hstep
    exact ⟨rfl, rfl, rfl⟩

/-- The phase that a command leaves, of the phase it finds (R26). -/
def phaseAfter (p : Phase) : Instr → Phase
  | .setup nn kk _ => if configValid nn kk then .ready else .unconfigured
  | .finalize => if p = .ready then .finalized else p
  | .append _ | .compress _ _ _ _ _ | .setctr _ _ | .status => p

theorem exec_phase {i : Instr} {s s' : State} (h : exec i s = .next s') : s'.phase = phaseAfter s.phase i := by
  rcases exec_cases h with ⟨nn, kk, key, rfl, hv, rfl⟩ | ⟨nn, kk, key, rfl, hv, rfl⟩ | ⟨data, rfl, hp, rfl⟩ |
    ⟨rfl, hp, rfl⟩ | ⟨t0, t1, rfl, hp, rfl⟩ | ⟨⟨data, rfl⟩ | rfl | ⟨t0, t1, rfl⟩, hp, rfl⟩ |
    ⟨h0, b, t0, t1, last, rfl, rfl⟩ | ⟨rfl, rfl⟩
  · simp [phaseAfter, hv]
  · simp [phaseAfter, hv]
  · simp [phaseAfter]
  · simp [phaseAfter, hp]
  · simp [phaseAfter]
  · simp [phaseAfter]
  · simp [phaseAfter, hp]
  · simp [phaseAfter]
  · simp [phaseAfter]
  · simp [phaseAfter]

/-- Settles O46: a command by `exec_phase`; reset leaves `Unconfigured`, and an illegal header changes no phase. -/
theorem phaseFollowsItsTransitions : Obligations.PhaseFollowsItsTransitions := by
  intro s s' e rest hin hstep
  rw [step_event hin] at hstep
  cases e with
  | reset =>
    cases hstep
    rfl
  | command bytes =>
    simp only [performEvent] at hstep ⊢
    generalize decode bytes = d at hstep ⊢
    cases d with
    | illFramed => cases hstep
    | illegal why =>
      cases hstep
      simp
    | instr i =>
      rw [exec_phase hstep]
      cases i <;> simp only [phaseAfter, configValid_iff]

/-- A command touches neither what the host has sent after it nor `BADCMD_SEEN`, and writes each of the other two flags
only with an error answer of that flag's code (R27, R48). -/
theorem exec_host_and_flags_frame {i : Instr} {s s' : State} (h : exec i s = .next s') :
    s'.inbox = s.inbox ∧ s'.freeDraws = s.freeDraws ∧ s'.badcmdSeen = s.badcmdSeen ∧
    (s'.misuseSeen = s.misuseSeen ∨ s'.outbox = s.outbox ++ [⟨.misuse, []⟩]) ∧
    (s'.configSeen = s.configSeen ∨ s'.outbox = s.outbox ++ [⟨.configError, []⟩]) := by
  obtain ⟨r, hr, hpayload⟩ := exec_outbox h
  obtain ⟨code, payload, t, rfl, hcode, ht⟩ := exec_eq_respond_setSticky h
  rw [ht] at hr ⊢
  obtain rfl : ⟨code, payload⟩ = r := by simpa using hr
  cases code with
  | ok => simp
  | badCmd => exact absurd rfl hcode
  | misuse =>
    obtain rfl : payload = [] := hpayload nofun
    simp
  | configError =>
    obtain rfl : payload = [] := hpayload nofun
    simp

/-- Settles O47: the host's side and the flags by `exec_host_and_flags_frame`, the other registers command by
command. -/
theorem commandsWriteOnlyTheirRegisters : Obligations.CommandsWriteOnlyTheirRegisters := by
  intro s s' i h
  obtain ⟨hin, hdraws, hbad, hmisuse, hconfig⟩ := exec_host_and_flags_frame h
  refine ⟨hin, hdraws, hbad, hmisuse, hconfig, ?_⟩
  rcases exec_cases h with ⟨nn, kk, key, rfl, hv, rfl⟩ | ⟨nn, kk, key, rfl, hv, rfl⟩ | ⟨data, rfl, hp, rfl⟩ |
    ⟨rfl, hp, rfl⟩ | ⟨t0, t1, rfl, hp, rfl⟩ | ⟨⟨data, rfl⟩ | rfl | ⟨t0, t1, rfl⟩, hp, rfl⟩ |
    ⟨h0, b, t0, t1, last, rfl, rfl⟩ | ⟨rfl, rfl⟩
  all_goals simp

end Sys2Proof.Machine
end

section
/-!
PROOF. The invariants of the core's states, at reset and through every step (10_state.md R34, R35).
-/

namespace Sys2Proof

open Machine

/-- Settles O14: the values of the reset state, as it is defined. -/
theorem resetStateHoldsTheResetValues : Obligations.ResetStateHoldsTheResetValues :=
  ⟨rfl, rfl, rfl, rfl, rfl, rfl, rfl, by decide⟩

/-- Outside `Finalized` the invariant speaks of the configuration alone (R34 b, f). -/
theorem inv_of_not_finalized {s : State} (nn_le : s.nn.toNat ≤ 64) (kk_le : s.kk.toNat ≤ 64)
    (configured : s.phase ≠ .unconfigured → 1 ≤ s.nn.toNat) (hp : s.phase ≠ .finalized) : Inv s :=
  ⟨nn_le, kk_le, configured, fun hf => absurd hf hp, fun hf => absurd hf hp⟩

/-- Settles O48: reset leaves `Unconfigured`, with `NN` and `KK` 0. -/
theorem resetMeetsTheInvariant : Obligations.ResetMeetsTheInvariant :=
  inv_of_not_finalized (by decide) (by decide) (fun hp => absurd rfl hp) nofun

theorem Inv.respond {s : State} (hinv : Inv s) (code : RespCode) (payload : List Byte) :
    Inv (respond code payload s) :=
  { hinv with digest_sent := fun hp => List.mem_append_left _ (hinv.digest_sent hp) }

theorem Inv.raise {s : State} (hinv : Inv s) (code : RespCode) : Inv (raise code s) := by
  refine Inv.respond ?_ code []
  cases code <;> exact { hinv with }

theorem Inv.withInbox {s : State} (hinv : Inv s) (inb : List HostEvent) : Inv { s with inbox := inb } :=
  { hinv with }

/-- The last compression leaves a full buffer, and the answer carries the digest of the hash state it leaves (R34 f,
R107, R108). -/
theorem Inv.finalize {s : State} (hinv : Inv s) (hp : s.phase = .ready) :
    Inv (Machine.respond .ok (digest (finishHash s)) (finishHash s)) where
  nn_le := by simpa using hinv.nn_le
  kk_le := by simpa using hinv.kk_le
  configured := fun _ => by simpa using hinv.configured (by simp [hp])
  full_when_finalized := fun _ => finishHash_c s
  digest_sent := fun _ => List.mem_append_right _ (List.mem_singleton_self _)

theorem exec_keeps_inv {i : Instr} {s s' : State} (hinv : Inv s) (h : exec i s = .next s') : Inv s' := by
  rcases exec_cases h with ⟨nn, kk, key, rfl, hv, rfl⟩ | ⟨nn, kk, key, rfl, hv, rfl⟩ | ⟨data, rfl, hp, rfl⟩ |
    ⟨rfl, hp, rfl⟩ | ⟨t0, t1, rfl, hp, rfl⟩ | ⟨hi, hp, rfl⟩ | ⟨h0, b, t0, t1, last, rfl, rfl⟩ | ⟨rfl, rfl⟩
  · obtain ⟨hnn, hnn', hkk⟩ := (configValid_iff nn kk).1 hv
    exact inv_of_not_finalized (by simpa) (by simpa) (by simpa) (by simp)
  · have unconfigured : Inv (setPhase .unconfigured s) :=
      inv_of_not_finalized hinv.nn_le hinv.kk_le (by simp) (by simp)
    exact unconfigured.raise .configError
  · exact inv_of_not_finalized (by simpa using hinv.nn_le) (by simpa using hinv.kk_le)
      (by simpa using hinv.configured) (by simp [hp])
  · exact hinv.finalize hp
  · exact inv_of_not_finalized hinv.nn_le hinv.kk_le hinv.configured (by simp [hp])
  · exact hinv.raise .misuse
  · exact hinv.respond _ _
  · exact hinv.respond _ _

/-- Settles O49: a step waits, performs a command, answers an illegal header or resets. -/
theorem everyStepKeepsTheInvariant : Obligations.EveryStepKeepsTheInvariant := by
  intro s s' hinv hstep
  rcases step_cases hstep with ⟨-, rfl⟩ | ⟨bytes, rest, i, -, -, hexec⟩ | ⟨bytes, rest, why, -, -, rfl⟩ | ⟨rest, -, rfl⟩
  · exact hinv
  · exact exec_keeps_inv (hinv.withInbox rest) hexec
  · exact (hinv.withInbox rest).raise .badCmd
  · exact inv_of_not_finalized (by simp) (by simp) (by simp) (by simp)

end Sys2Proof
end

section
/-!
PROOF. Appending: within the buffer (10_state.md R33; 41_hasher.md R106), and the input that the hasher has taken in
(10_state.md R34 c, d, e; 41_hasher.md R104, R109).
-/

namespace Sys2Proof

open Machine

theorem placeByte_b_getElem (x : Byte) (s : State) (j : Fin 128) :
    (placeByte x s).b[j] = if j.val = s.c.val then x else s.b[j] := by
  simp [Vector.getElem_setIfInBounds, eq_comm]

/-- Bytes that fit in the buffer are placed one behind the other, and nothing is compressed (R33, R105). -/
theorem appendBytes_within_buffer (data : List Byte) (s : State) (hfit : s.c.val + data.length ≤ 128) :
    (appendBytes data s).c.val = s.c.val + data.length ∧
    (∀ j : Fin 128, (appendBytes data s).b[j] =
      if s.c.val ≤ j.val ∧ j.val < s.c.val + data.length then data.getD (j.val - s.c.val) 0 else s.b[j]) ∧
    appendBytes data s = { s with b := (appendBytes data s).b, c := (appendBytes data s).c } := by
  induction data generalizing s with
  | nil => exact ⟨rfl, fun j => by rw [if_neg (by simp)]; rfl, rfl⟩
  | cons x xs ih =>
    rw [List.length_cons] at hfit ⊢
    have hroom : s.c.val < 128 := by omega
    have hc := placeByte_c_val x hroom
    have hne : s.c ≠ 128 := fun h => by simp [h] at hroom
    rw [appendBytes_cons, appendByte_room x hne]
    obtain ⟨fill, bytes, frame⟩ := ih (placeByte x s) (by omega)
    refine ⟨by omega, fun j => ?_, by rw [frame]; rfl⟩
    rw [bytes j, placeByte_b_getElem, hc]
    rcases lt_trichotomy j.val s.c.val with hlt | heq | hgt
    · rw [if_neg (by omega), if_neg (by omega), if_neg (by omega)]
    · rw [if_neg (by omega), if_pos heq, if_pos (by omega), heq]
      simp
    · by_cases hend : j.val < s.c.val + (xs.length + 1)
      · have shift : j.val - s.c.val = j.val - (s.c.val + 1) + 1 := by omega
        rw [if_pos (by omega), if_pos (by omega), shift, List.getD_cons_succ]
      · rw [if_neg (by omega), if_neg (by omega), if_neg (by omega)]

/-- Settles O33: the answer changes none of the registers that `appendBytes_within_buffer` speaks of. -/
theorem appendWithinTheBufferOnlyStages : Obligations.AppendWithinTheBufferOnlyStages := by
  intro data s hp hfit
  obtain ⟨fill, bytes, frame⟩ := appendBytes_within_buffer data s hfit
  exact ⟨_, exec_append_ready data hp, fill, bytes, congrArg (respond .ok []) frame⟩

/-- The state has compressed and counted the first `n` blocks of the input, and holds the rest in its buffer: what
`AbsorbedBy` says for the number of blocks that R33 gives, here for any number, as between a compression and the byte
that calls for it. -/
structure TookBlocks (h : HashState) (input : List Byte) (n : Nat) (s : State) : Prop where
  hash : s.h = chain h input n
  count : counter s = BitVec.ofNat 128 (128 * n)
  fill : s.c.val + 128 * n = input.length
  staged : s.b.toList.take s.c.val = input.drop (128 * n)

theorem AbsorbedBy.tookBlocks {h : HashState} {input : List Byte} {s : State} (ha : AbsorbedBy h input s) :
    TookBlocks h input (doneBlocks input.length) s :=
  ⟨ha.hash, ha.count, by have := ha.fill; unfold doneBlocks at this ⊢; omega, ha.staged⟩

theorem TookBlocks.absorbedBy {h : HashState} {input : List Byte} {n : Nat} {s : State} (ht : TookBlocks h input n s)
    (hp : s.phase = .ready) (hn : n = doneBlocks input.length) : AbsorbedBy h input s := by
  subst hn
  exact ⟨hp, ht.hash, ht.count, by have := ht.fill; omega, ht.staged⟩

/-- Compressing the full buffer takes in one more block (R105, R109). -/
theorem TookBlocks.flushBuffer {h : HashState} {input : List Byte} {n : Nat} {s : State} (ht : TookBlocks h input n s)
    (hc : s.c = 128) : TookBlocks h input (n + 1) (flushBuffer s) := by
  have fill : 128 + 128 * n = input.length := by simpa [hc] using ht.fill
  have block : s.b.toList = input.drop (128 * n) := by rw [← ht.staged, staged_of_full hc]
  have count : counter (ctrAdd 128 s) = BitVec.ofNat 128 (128 * (n + 1)) := by
    rw [counter_ctrAdd, ht.count, Nat.mul_add, BitVec.ofNat_add]
    rfl
  refine ⟨?_, by simpa using count, by simp; omega, ?_⟩
  · rw [flushBuffer_h, chain_succ, count, ht.hash, ← block, List.take_of_length_le (by simp), padTo_of_vector]
  · rw [flushBuffer_c, List.drop_of_length_le (by omega)]
    rfl

/-- A byte with room for it is staged behind the rest of the input (R105). -/
theorem TookBlocks.placeByte {h : HashState} {input : List Byte} {n : Nat} {s : State} (ht : TookBlocks h input n s)
    (x : Byte) (hc : s.c.val < 128) : TookBlocks h (input ++ [x]) n (placeByte x s) := by
  have fill := ht.fill
  refine ⟨?_, by simpa using ht.count, ?_, ?_⟩
  · rw [placeByte_h, ht.hash, chain_append h input [x] n (by omega)]
  · rw [placeByte_c_val x hc, List.length_append, List.length_singleton]
    omega
  · rw [placeByte_staged x hc, ht.staged, List.drop_append_of_le_length (by omega)]

/-- One byte more: a full buffer is compressed first, and the number of blocks follows R33. -/
theorem AbsorbedBy.appendByte {h : HashState} {input : List Byte} {s : State} (ha : AbsorbedBy h input s) (x : Byte) :
    AbsorbedBy h (input ++ [x]) (appendByte x s) := by
  have blocks : ∀ {n : Nat} {t : State}, TookBlocks h (input ++ [x]) n (Machine.placeByte x t) → t.c.val < 128 →
      n = doneBlocks (input ++ [x]).length := by
    intro n t ht hc
    have := ht.fill
    rw [placeByte_c_val x hc] at this
    unfold doneBlocks
    omega
  by_cases hc : s.c = 128
  · rw [appendByte_full x hc]
    have room : (Machine.flushBuffer s).c.val < 128 := by simp
    have took := (ha.tookBlocks.flushBuffer hc).placeByte x room
    exact took.absorbedBy ha.phase (blocks took room)
  · rw [appendByte_room x hc]
    have room := c_lt_of_ne_full hc
    have took := ha.tookBlocks.placeByte x room
    exact took.absorbedBy ha.phase (blocks took room)

theorem AbsorbedBy.appendBytes {h : HashState} {input : List Byte} {s : State} (ha : AbsorbedBy h input s)
    (data : List Byte) : AbsorbedBy h (input ++ data) (appendBytes data s) := by
  induction data generalizing input s with
  | nil => simpa using ha
  | cons x xs ih => simpa using ih (ha.appendByte x)

theorem AbsorbedBy.respond {h : HashState} {input : List Byte} {s : State} (ha : AbsorbedBy h input s)
    (code : RespCode) (payload : List Byte) : AbsorbedBy h input (respond code payload s) :=
  { ha with }

/-- SETUP has compressed nothing, and stages the key block, or nothing (R103, R104). -/
theorem setup_absorbedBy (nn kk : Byte) (key : Vector Byte 64) (s : State) :
    AbsorbedBy (initHash nn kk) (inputOf kk key []) (setPhase .ready (loadKey kk key (startHash nn kk s))) := by
  have took : TookBlocks (initHash nn kk) (inputOf kk key []) 0
      (setPhase .ready (loadKey kk key (startHash nn kk s))) := by
    refine ⟨by simp, ?_, ?_, ?_⟩
    · simp [counter]
    · rw [inputOf_length]
      by_cases hk : 0 < kk.toNat <;> simp [hk]
    · by_cases hk : 0 < kk.toNat <;> simp [inputOf, hk]
  refine took.absorbedBy rfl ?_
  rw [inputOf_length]
  unfold doneBlocks
  split <;> simp

/-- Settles O50: SETUP by `setup_absorbedBy`, APPEND one byte after the other. -/
theorem hasherTakesInExactlyItsInput : Obligations.HasherTakesInExactlyItsInput := by
  refine ⟨fun nn kk key s t hnn hnn' hkk hexec => ?_, fun h input data s t ha hexec => ?_⟩
  · have valid := (configValid_iff nn kk).2 ⟨hnn, hnn', hkk⟩
    simp only [exec, execSetup, valid, if_true] at hexec
    cases hexec
    exact (setup_absorbedBy nn kk key s).respond .ok []
  · rw [exec_append_ready data ha.phase] at hexec
    cases hexec
    exact (ha.appendBytes data).respond .ok []

end Sys2Proof
end

section
/-!
PROOF. What no command reads is never observed (10_state.md R23, R34 c, R35; 70_reset_and_hazards.md R169).
-/

namespace Sys2Proof

open Machine

/-! States alike stay alike under each operation. -/

theorem Alike.respond {s s' : State} (ha : Alike s s') (code : RespCode) (payload : List Byte) :
    Alike (respond code payload s) (respond code payload s') :=
  { ha with outbox := by simp [ha.outbox] }

theorem Alike.raise {s s' : State} (ha : Alike s s') (code : RespCode) : Alike (raise code s) (raise code s') := by
  refine Alike.respond ?_ code []
  cases code with
  | ok => exact ha
  | configError => exact { ha with configSeen := rfl }
  | misuse => exact { ha with misuseSeen := rfl }
  | badCmd => exact { ha with badcmdSeen := rfl }

theorem Alike.withInbox {s s' : State} (ha : Alike s s') (inb : List HostEvent) :
    Alike { s with inbox := inb } { s' with inbox := inb } :=
  { ha with inbox := rfl }

/-- Outside `Ready` the hash state, the counter and the buffer are not compared (U2, U12). -/
theorem Alike.setPhase {s s' : State} (ha : Alike s s') {p : Phase} (hp : p ≠ .ready) :
    Alike (setPhase p s) (setPhase p s') :=
  { ha with phase := rfl, h := fun hr => absurd hr hp, t := fun hr => absurd hr hp, staged := fun hr => absurd hr hp }

theorem Alike.statusWord {s s' : State} (ha : Alike s s') : statusWord s = statusWord s' := by
  simp only [Machine.statusWord, ha.c, ha.nn, ha.kk, ha.phase, ha.misuseSeen, ha.configSeen, ha.badcmdSeen]

theorem Alike.block_of_full {s s' : State} (ha : Alike s s') (hp : s.phase = .ready) (hc : s.c = 128) : s.b = s'.b := by
  have staged := ha.staged hp
  rw [staged_of_full hc, ha.c, staged_of_full (ha.c ▸ hc)] at staged
  exact Vector.toList_inj.1 staged

theorem Alike.counter_ctrAdd {s s' : State} (ha : Alike s s') (hp : s.phase = .ready) (n : Word) :
    counter (ctrAdd n s) = counter (ctrAdd n s') := by
  rw [Machine.counter_ctrAdd, Machine.counter_ctrAdd, ha.t hp]

/-- A full buffer holds no stale byte, so what is compressed is the same in both. -/
theorem Alike.flushBuffer {s s' : State} (ha : Alike s s') (hp : s.phase = .ready) (hc : s.c = 128) :
    Alike (flushBuffer s) (flushBuffer s') :=
  { ha with
    c := rfl
    h := fun _ => by
      rw [flushBuffer_h, flushBuffer_h, ha.h hp, ha.block_of_full hp hc, ha.counter_ctrAdd hp]
    t := fun _ => by simpa using ha.counter_ctrAdd hp 128
    staged := fun _ => rfl }

theorem Alike.placeByte {s s' : State} (ha : Alike s s') (x : Byte) (hc : s.c.val < 128) :
    Alike (placeByte x s) (placeByte x s') := by
  have c_eq : (Machine.placeByte x s).c = (Machine.placeByte x s').c := by simp [ha.c]
  refine { ha with c := c_eq, staged := fun hp => ?_ }
  rw [placeByte_staged x hc, c_eq, placeByte_staged x (ha.c ▸ hc), ha.staged hp, ha.c]

theorem Alike.appendByte {s s' : State} (ha : Alike s s') (x : Byte) (hp : s.phase = .ready) :
    Alike (appendByte x s) (appendByte x s') := by
  by_cases hc : s.c = 128
  · rw [appendByte_full x hc, appendByte_full x (ha.c ▸ hc)]
    exact (ha.flushBuffer hp hc).placeByte x (by simp)
  · rw [appendByte_room x hc, appendByte_room x (ha.c ▸ hc)]
    exact ha.placeByte x (c_lt_of_ne_full hc)

theorem Alike.appendBytes {s s' : State} (ha : Alike s s') (data : List Byte) (hp : s.phase = .ready) :
    Alike (appendBytes data s) (appendBytes data s') := by
  induction data generalizing s s' with
  | nil => exact ha
  | cons x xs ih =>
    have phase : (Machine.appendByte x s).phase = .ready := by rw [appendByte_frame, hp]
    exact ih (ha.appendByte x hp) phase

/-- FINALIZE zeroes the stale bytes before it compresses (R107). -/
theorem Alike.finishHash_h {s s' : State} (ha : Alike s s') (hp : s.phase = .ready) :
    (finishHash s).h = (finishHash s').h := by
  rw [Machine.finishHash_h, Machine.finishHash_h, ha.h hp, ha.staged hp, ← ha.c, ha.counter_ctrAdd hp]

theorem Alike.finishHash {s s' : State} (ha : Alike s s') : Alike (finishHash s) (finishHash s') where
  c := by simp
  nn := by simpa using ha.nn
  kk := by simpa using ha.kk
  phase := by simp
  misuseSeen := by simpa using ha.misuseSeen
  configSeen := by simpa using ha.configSeen
  badcmdSeen := by simpa using ha.badcmdSeen
  inbox := by simpa using ha.inbox
  outbox := by simpa using ha.outbox
  freeDraws := by simpa using ha.freeDraws
  h := by simp
  t := by simp
  staged := by simp

/-- SETUP overwrites what differs: the hash state, the counter and, under a key, the whole buffer (R103). -/
theorem Alike.setup {s s' : State} (ha : Alike s s') (nn kk : Byte) (key : Vector Byte 64) :
    Alike (Machine.setPhase .ready (loadKey kk key (startHash nn kk s)))
      (Machine.setPhase .ready (loadKey kk key (startHash nn kk s'))) where
  c := by simp
  nn := by simp
  kk := by simp
  phase := by simp
  misuseSeen := by simpa using ha.misuseSeen
  configSeen := by simpa using ha.configSeen
  badcmdSeen := by simpa using ha.badcmdSeen
  inbox := by simpa using ha.inbox
  outbox := by simpa using ha.outbox
  freeDraws := by simpa using ha.freeDraws
  h := by simp
  t := by simp [counter]
  staged := by by_cases hk : 0 < kk.toNat <;> simp [hk]

/-- Reset replaces what differs by free values that `freeDraws` alone numbers (R160). -/
theorem Alike.applyReset {s s' : State} (ha : Alike s s') : Alike (applyReset s) (applyReset s') :=
  { c := rfl, nn := rfl, kk := rfl, phase := rfl, misuseSeen := rfl, configSeen := rfl, badcmdSeen := rfl
    inbox := ha.inbox
    outbox := ha.outbox
    freeDraws := congrArg (· + 1) ha.freeDraws
    h := nofun
    t := nofun
    staged := nofun }

/-! Commands, steps and runs. -/

/-- The phase check sees the same phase in both, so both commands are performed or both are answered MISUSE. -/
theorem Alike.whenReady {s s' : State} (ha : Alike s s') {perform : State → State}
    (hperform : s.phase = .ready → Alike (perform s) (perform s')) :
    outcomesAlike (whenReady perform s) (whenReady perform s') := by
  by_cases hp : s.phase = .ready
  · rw [whenReady_ready perform hp, whenReady_ready perform (ha.phase ▸ hp)]
    exact hperform hp
  · rw [whenReady_not_ready perform hp, whenReady_not_ready perform (ha.phase ▸ hp)]
    exact ha.raise .misuse

theorem Alike.exec {s s' : State} (ha : Alike s s') (i : Instr) : outcomesAlike (exec i s) (exec i s') := by
  cases i with
  | setup nn kk key =>
    simp only [Machine.exec, execSetup]
    split
    · exact (ha.setup nn kk key).respond .ok []
    · exact (ha.setPhase (p := .unconfigured) nofun).raise .configError
  | append data =>
    simp only [Machine.exec, execAppend]
    exact ha.whenReady fun hp => (ha.appendBytes data hp).respond .ok []
  | finalize =>
    simp only [Machine.exec, execFinalize]
    refine ha.whenReady fun hp => ?_
    have digest_eq : digest (Machine.finishHash s) = digest (Machine.finishHash s') := by
      simp only [digest, ha.finishHash_h hp, finishHash_nn, ha.nn]
    rw [digest_eq]
    exact ha.finishHash.respond .ok _
  | compress h block t0 t1 last => exact ha.respond .ok _
  | setctr t0 t1 =>
    simp only [Machine.exec, execSetctr]
    refine ha.whenReady fun _ => Alike.respond ?_ .ok []
    exact { ha with t := fun _ => rfl }
  | status =>
    simp only [Machine.exec, execStatus, ha.statusWord]
    exact ha.respond .ok _

theorem Alike.step {s s' : State} (ha : Alike s s') : outcomesAlike (step s) (step s') := by
  cases hin : s.inbox with
  | nil =>
    rw [step_idle hin, step_idle (ha.inbox ▸ hin)]
    exact ha
  | cons e rest =>
    have ha' := ha.withInbox rest
    cases e with
    | reset =>
      rw [step_reset hin, step_reset (ha.inbox ▸ hin)]
      exact ha'.applyReset
    | command bytes =>
      rw [step_command hin, step_command (ha.inbox ▸ hin)]
      cases decode bytes with
      | instr i => exact ha'.exec i
      | illegal why => exact ha'.raise .badCmd
      | illFramed => exact rfl

/-- Settles O54, by `Alike.step`. -/
theorem stepKeepsStatesAlike : Obligations.StepKeepsStatesAlike :=
  fun _ _ ha => ha.step

/-- Outcomes alike: both go on, in states alike, or both stop for the same reason. -/
theorem outcomesAlike_cases {o o' : Host.Outcome State Fault Refusal} (h : outcomesAlike o o') :
    (∃ s s', o = .next s ∧ o' = .next s' ∧ Alike s s') ∨ (∃ f, o = .fault f ∧ o' = .fault f) ∨
    ∃ r, o = .refused r ∧ o' = .refused r := by
  cases o <;> cases o'
  case next.next s s' => exact .inl ⟨s, s', rfl, rfl, h⟩
  case fault.fault f f' => exact .inr (.inl ⟨f, rfl, congrArg _ h.symm⟩)
  case refused.refused r r' => exact .inr (.inr ⟨r, rfl, congrArg _ h.symm⟩)
  all_goals exact h.elim

theorem Alike.run {s s' : State} (ha : Alike s s') (k : Nat) :
    outcomesAlike (Sys2Proof.core.run k s) (Sys2Proof.core.run k s') := by
  induction k generalizing s s' with
  | zero => exact ha
  | succ k ih =>
    have hstep : outcomesAlike (core.step s) (core.step s') := ha.step
    simp only [Host.Core.run]
    rcases outcomesAlike_cases hstep with ⟨t, t', ht, ht', hat⟩ | ⟨f, hf, hf'⟩ | ⟨r, hr, hr'⟩
    · rw [ht, ht']
      exact ih hat
    · rw [hf, hf']
      rfl
    · rw [hr, hr']
      rfl

/-- The host sees the responses and STATUS, of which states alike have the same. -/
theorem sameObservation_of_outcomesAlike {o o' : Host.Outcome State Fault Refusal} (h : outcomesAlike o o') :
    sameObservation o o' := by
  rcases outcomesAlike_cases h with ⟨s, s', rfl, rfl, ha⟩ | ⟨f, rfl, rfl⟩ | ⟨r, rfl, rfl⟩
  · exact Prod.ext ha.outbox ha.statusWord
  · rfl
  · rfl

/-- Settles O55: the two states after reset are alike, since reset leaves `Unconfigured`. -/
theorem unspecifiedResetValuesAreNeverObserved : Obligations.UnspecifiedResetValuesAreNeverObserved := by
  intro h t0 t1 b sentEvents k
  have start : Alike { State.reset with inbox := sentEvents }
      { State.reset with h := h, t0 := t0, t1 := t1, b := b, inbox := sentEvents } :=
    ⟨rfl, rfl, rfl, rfl, rfl, rfl, rfl, rfl, rfl, rfl, nofun, nofun, nofun⟩
  exact sameObservation_of_outcomesAlike (start.run k)

end Sys2Proof
end

section
/-!
PROOF. Commands on the wire: a command's bytes decode to it, a step performs it, and a run performs a list of them in
issue order (20_memory.md R44, R48; 30_encoding.md R60, R63, R68).
-/

namespace Sys2Proof

open Machine

/-- The header announces the length of the payload it is sent with (R63). -/
theorem payloadLength_encodeHeader {i : Instr} (hwf : i.WellFormed) :
    payloadLength (encodeHeader i) = (encodePayload i).length := by
  cases i with
  | setup nn kk key => exact Laws.Framing.setup nn kk key hwf
  | append data => exact Laws.Framing.append data hwf
  | finalize => exact Laws.Framing.finalize hwf
  | compress h block t0 t1 last => exact Laws.Framing.compress h block t0 t1 last hwf
  | setctr t0 t1 => exact Laws.Framing.setctr t0 t1 hwf
  | status => exact Laws.Framing.status hwf

/-! The headers of the commands that have an operand: the other two have a fixed header and no payload. -/

@[simp] theorem decodeHeader_encodeHeader_setup (nn kk : Byte) (key : Vector Byte 64) :
    decodeHeader (encodeHeader (.setup nn kk key)) = .setup nn kk := by
  simp [encodeHeader_setup, decodeHeader]

@[simp] theorem decodeHeader_encodeHeader_append (data : List Byte) :
    decodeHeader (encodeHeader (.append data)) = .append (hdrB (encodeHeader (.append data))) := by
  simp [encodeHeader_append, decodeHeader]

@[simp] theorem decodeHeader_encodeHeader_compress (h : HashState) (block : Block) (t0 t1 : Word) (last : Bool) :
    decodeHeader (encodeHeader (.compress h block t0 t1 last)) = .compress last := by
  cases last <;> simp only [encodeHeader] <;> decide

@[simp] theorem decodeHeader_encodeHeader_setctr (t0 t1 : Word) :
    decodeHeader (encodeHeader (.setctr t0 t1)) = .setctr := by
  simp only [encodeHeader]
  decide

/-! The payloads that hold words: the operands at the offsets of R63. -/

/-- The counter words of SETCTR, and of COMPRESS behind its block (R63). -/
theorem le64_two_words (w0 w1 : Word) :
    le64 (leBytes64 w0 ++ leBytes64 w1) 0 = w0 ∧ le64 (leBytes64 w0 ++ leBytes64 w1) 1 = w1 := by
  refine ⟨le64_leBytes64 w0 _, ?_⟩
  rw [show 1 = 1 + 0 from rfl, le64_append _ _ 0 1 (leBytes64_length w0), ← List.append_nil (leBytes64 w1),
    le64_leBytes64]

/-- Bytes that fill the array are all that is read of a longer sequence. -/
theorem padTo_vector_append {n : Nat} (v : Vector Byte n) (rest : List Byte) : padTo n (v.toList ++ rest) = v := by
  ext i hi : 1
  rw [padTo_getElem, List.getD_eq_getElem?_getD, List.getElem?_append_left (by simpa)]
  simp [hi]

theorem decodePayload_setctr (t0 t1 : Word) :
    decodePayload .setctr (encodePayload (.setctr t0 t1)) = .instr (.setctr t0 t1) := by
  obtain ⟨low, high⟩ := le64_two_words t0 t1
  simp only [decodePayload, encodePayload, low, high]

theorem decodePayload_compress (h : HashState) (block : Block) (t0 t1 : Word) (last : Bool) :
    decodePayload (.compress last) (encodePayload (.compress h block t0 t1 last)) =
      .instr (.compress h block t0 t1 last) := by
  obtain ⟨low, high⟩ := le64_two_words t0 t1
  have layout : encodePayload (.compress h block t0 t1 last) =
      leBytes h ++ (block.toList ++ (leBytes64 t0 ++ leBytes64 t1)) := by
    simp [encodePayload]
  have counters : ∀ k, le64 (encodePayload (.compress h block t0 t1 last)) (24 + k) =
      le64 (leBytes64 t0 ++ leBytes64 t1) k := by
    intro k
    rw [layout, ← List.append_assoc, le64_append _ _ k 24 (by simp)]
  have block_eq : padTo 128 ((encodePayload (.compress h block t0 t1 last)).drop 64) = block := by
    rw [layout, List.drop_left' (leBytes_length h), padTo_vector_append]
  simp only [decodePayload, (counters 0).trans low, (counters 1).trans high, block_eq]
  rw [layout, le64Words_leBytes]

/-- A well-formed command is read back from its own bytes (R60, R68). -/
theorem decode_encode {i : Instr} (hwf : i.WellFormed) : decode (encode i) = .instr i := by
  rw [encode, decode_header_payload, if_pos (payloadLength_encodeHeader hwf).symm]
  cases i with
  | setup nn kk key => simp [decodePayload, encodePayload]
  | append data => simp [decodePayload, encodePayload]
  | finalize => rfl
  | compress h block t0 t1 last => rw [decodeHeader_encodeHeader_compress, decodePayload_compress]
  | setctr t0 t1 => rw [decodeHeader_encodeHeader_setctr, decodePayload_setctr]
  | status => rfl

/-- Settles O8, by `step_command`. -/
theorem stepRunsTheDecodedCommand : Obligations.StepRunsTheDecodedCommand := by
  intro s bytes rest i hin hdecode
  rw [step_command hin, hdecode]
  rfl

/-- The first command on the wire is the one the next step performs; the others wait (R48). -/
theorem step_sent_cons {i : Instr} (hwf : i.WellFormed) (cmds : List Instr) {s s' : State}
    (hexec : exec i s = .next s') : step (sent (i :: cmds) s) = .next (sent cmds s') := by
  rw [stepRunsTheDecodedCommand _ _ _ i rfl (decode_encode hwf)]
  exact exec_withInbox (s := s) _ hexec

/-- Settles O53: the first step performs the first command, and no command reads what waits behind it. -/
theorem runPerformsCommandsInIssueOrder : Obligations.RunPerformsCommandsInIssueOrder := by
  intro cmds s hwf
  induction cmds generalizing s with
  | nil => rfl
  | cons i cmds ih =>
    obtain ⟨hi, hcmds⟩ := List.forall_mem_cons.1 hwf
    obtain ⟨s', hexec⟩ := exec_answers i s
    have hstep : core.step (sent (i :: cmds) s) = .next (sent cmds s') := step_sent_cons hi cmds hexec
    rw [execAll_cons, exec_withInbox [] hexec, andThen_next, ← ih s' hcmds, List.length_cons]
    simp only [Host.Core.run, hstep]

end Sys2Proof
end

section
/-!
PROOF. What commands leave behind: SETUP nothing of the state it finds, STATUS and COMPRESS no register changed
(20_memory.md R46).
-/

namespace Sys2Proof

open Machine

theorem exec_setup_valid {nn kk : Byte} (key : Vector Byte 64) (s : State) (hvalid : configValid nn kk = true) :
    exec (.setup nn kk key) s = .next (respond .ok [] (setPhase .ready (loadKey kk key (startHash nn kk s)))) := by
  simp only [exec, execSetup, hvalid, if_true]

/-- Settles O29: SETUP writes every other register, except that without a key the buffer keeps its bytes, and then none
of them is staged (R103). -/
theorem setupForgetsThePast : Obligations.SetupForgetsThePast := by
  intro nn kk key s s' hnn hnn' hkk
  have valid := (configValid_iff nn kk).2 ⟨hnn, hnn', hkk⟩
  refine ⟨_, _, exec_setup_valid key s valid, exec_setup_valid key s' valid, ?_⟩
  exact {
    c := by simp
    nn := by simp
    kk := by simp
    phase := rfl
    misuseSeen := rfl
    configSeen := rfl
    badcmdSeen := rfl
    inbox := rfl
    outbox := rfl
    freeDraws := rfl
    h := by simp
    t := by simp [counter]
    staged := by by_cases hk : 0 < kk.toNat <;> simp [hk] }

/-- A command that only answers, and whose answer does not depend on those before it, answers the same again. -/
theorem execAll_twice_of_answer {i : Instr} {s : State} {r : Response}
    (answers : ∀ out, exec i { s with outbox := out } = .next { s with outbox := out ++ [r] }) :
    execAll [i, i] s = .next { s with outbox := s.outbox ++ [r, r] } := by
  have first : exec i s = .next { s with outbox := s.outbox ++ [r] } := answers s.outbox
  rw [execAll_cons, first, andThen_next, execAll_cons, answers, List.append_assoc]
  rfl

/-- Settles O39: neither command reads the responses, and neither writes anything else. -/
theorem statusAndCompressCanBeRepeated : Obligations.StatusAndCompressCanBeRepeated := by
  rintro s i (rfl | ⟨h, block, t0, t1, last, rfl⟩)
  · exact ⟨⟨.ok, leBytes32 (statusWord s)⟩, execAll_twice_of_answer fun _ => rfl⟩
  · exact ⟨⟨.ok, leBytes (compress h block (t1 ++ t0) last)⟩, execAll_twice_of_answer fun _ => rfl⟩

end Sys2Proof
end

section
/-!
PROOF. The cores of a platform (20_memory.md R49, 60_exceptions.md R152).
-/

namespace Sys2Proof.Machine

/-- A step of core `k` is a step of the state it holds, and replaces that state (R49). -/
theorem platformStep_eq_some_iff {k : Nat} {p p' : Platform} :
    platformStep k p = some p' ↔
      ∃ s s', p.cores[k]? = some s ∧ step s = .next s' ∧ p' = ⟨p.cores.set k s'⟩ := by
  unfold platformStep
  cases hk : p.cores[k]? with
  | none => simp
  | some s => cases hs : step s <;> simp [hs, eq_comm]

theorem platformStep_other {j k : Nat} (hjk : j ≠ k) {p p' : Platform} (h : platformStep j p = some p') :
    p'.cores[k]? = p.cores[k]? := by
  obtain ⟨s, s', -, -, rfl⟩ := platformStep_eq_some_iff.1 h
  exact List.getElem?_set_ne hjk

/-- Steps of two cores taken in one order can be taken in the other. -/
theorem platformStep_swap {j k : Nat} (hjk : j ≠ k) {p q r : Platform} (hj : platformStep j p = some q)
    (hk : platformStep k q = some r) : ∃ q', platformStep k p = some q' ∧ platformStep j q' = some r := by
  have unread := platformStep_other hjk hj
  obtain ⟨s, s', hs, hstep, rfl⟩ := platformStep_eq_some_iff.1 hj
  obtain ⟨u, u', hu, hstep', rfl⟩ := platformStep_eq_some_iff.1 hk
  have first : platformStep k p = some ⟨p.cores.set k u'⟩ :=
    platformStep_eq_some_iff.2 ⟨u, u', unread ▸ hu, hstep', rfl⟩
  have second := platformStep_other hjk.symm first
  exact ⟨_, first, platformStep_eq_some_iff.2 ⟨s, s', second.trans hs, hstep, by rw [List.set_comm _ _ hjk]⟩⟩

/-- Settles O60: both orders reach the same platforms, by `platformStep_swap`. -/
theorem coresOfAPlatformAreIndependent : Obligations.CoresOfAPlatformAreIndependent := by
  intro p j k hjk
  refine ⟨Option.ext fun r => ?_, fun _ => platformStep_other hjk⟩
  simp only [Option.bind_eq_some_iff]
  exact ⟨fun ⟨_, hj, hk⟩ => platformStep_swap hjk hj hk, fun ⟨_, hk, hj⟩ => platformStep_swap hjk.symm hk hj⟩

end Sys2Proof.Machine
end

section
/-!
PROOF. The headers: the row of the opcode map that a header matches is the one it decodes to, and every other header is
illegal (30_encoding.md R61, R62, R66 to R68).
-/

namespace Sys2Proof

open Machine

/-- `OPC` of a command (R66). -/
def Mnemonic.opcode : Mnemonic → BitVec 4
  | .setup => 1
  | .append => 2
  | .finalize => 3
  | .compress => 4
  | .setctr => 5
  | .status => 6

/-- The must-be-zero rule of a command's format, beside that of `RSV` (R62). -/
def Mnemonic.OperandsClear (m : Mnemonic) (hdr : Header) : Prop :=
  match m with
  | .setup => hdrBHigh hdr = 0
  | .append => hdrA hdr = 0
  | .compress => hdrA hdr = 0 ∧ hdrBUpper hdr = 0
  | .finalize | .setctr | .status => hdrA hdr = 0 ∧ hdrB hdr = 0

/-- A legal header of this command: its opcode, and no bit set that must be zero (R62, R66). -/
structure Mnemonic.Legal (m : Mnemonic) (hdr : Header) : Prop where
  opc : hdrOpc hdr = m.opcode
  rsv : hdrRsv hdr = 0
  clear : m.OperandsClear hdr

theorem Mnemonic.legal_iff (m : Mnemonic) (hdr : Header) :
    m.Legal hdr ↔ hdrOpc hdr = m.opcode ∧ hdrRsv hdr = 0 ∧ m.OperandsClear hdr :=
  ⟨fun ⟨opc, rsv, clear⟩ => ⟨opc, rsv, clear⟩, fun ⟨opc, rsv, clear⟩ => ⟨opc, rsv, clear⟩⟩

/-- What the command's header says, with the operands where R65 puts them. -/
def Mnemonic.form (m : Mnemonic) (hdr : Header) : HeaderForm :=
  match m with
  | .setup => .setup (hdrA hdr) (hdrBLow hdr)
  | .append => .append (hdrB hdr)
  | .finalize => .finalize
  | .compress => .compress (hdrLast hdr)
  | .setctr => .setctr
  | .status => .status

@[simp] theorem Mnemonic.form_mnemonic (m : Mnemonic) (hdr : Header) : (m.form hdr).mnemonic = some m := by
  cases m <;> rfl

theorem Mnemonic.opcode_injective : Function.Injective Mnemonic.opcode := by
  intro m m' h
  revert h
  cases m <;> cases m' <;> decide

/-- No header is legal for two commands. -/
theorem Mnemonic.Legal.unique {m m' : Mnemonic} {hdr : Header} (h : m.Legal hdr) (h' : m'.Legal hdr) : m = m' :=
  Mnemonic.opcode_injective (h.opc.symm.trans h'.opc)

/-- R67 in the names of the fields. -/
theorem reservedHeader_iff (hdr : Header) : ReservedHeader hdr ↔
    ((hdrOpc hdr).toNat = 0 ∨ 7 ≤ (hdrOpc hdr).toNat) ∨ hdrRsv hdr ≠ 0 ∨
    ((hdrOpc hdr).toNat = 1 ∧ hdrBHigh hdr ≠ 0) ∨ ((hdrOpc hdr).toNat = 2 ∧ hdrA hdr ≠ 0) ∨
    ((hdrOpc hdr).toNat = 4 ∧ (hdrA hdr ≠ 0 ∨ hdrBUpper hdr ≠ 0)) ∨
    (((hdrOpc hdr).toNat = 3 ∨ (hdrOpc hdr).toNat = 5 ∨ (hdrOpc hdr).toNat = 6) ∧ (hdrA hdr ≠ 0 ∨ hdrB hdr ≠ 0)) :=
  Iff.rfl

theorem Mnemonic.Legal.not_reserved {m : Mnemonic} {hdr : Header} (h : m.Legal hdr) : ¬ ReservedHeader hdr := by
  obtain ⟨opc, rsv, clear⟩ := h
  rw [reservedHeader_iff, opc, rsv]
  cases m <;> simp_all [Mnemonic.opcode, Mnemonic.OperandsClear]

theorem exists_legal_of_not_reserved {hdr : Header} (h : ¬ ReservedHeader hdr) : ∃ m : Mnemonic, m.Legal hdr := by
  simp only [reservedHeader_iff, not_or, not_and, not_not] at h
  obtain ⟨⟨opc_pos, opc_lt⟩, rsv, setup, append, compress, operandless⟩ := h
  have opcode : ∃ m : Mnemonic, (hdrOpc hdr).toNat = m.opcode.toNat := by
    generalize (hdrOpc hdr).toNat = opc at opc_pos opc_lt
    have : 0 < opc := by omega
    interval_cases opc
    exacts [⟨.setup, rfl⟩, ⟨.append, rfl⟩, ⟨.finalize, rfl⟩, ⟨.compress, rfl⟩, ⟨.setctr, rfl⟩, ⟨.status, rfl⟩]
  obtain ⟨m, opc⟩ := opcode
  refine ⟨m, BitVec.eq_of_toNat_eq opc, rsv, ?_⟩
  cases m with
  | setup => exact setup opc
  | append => exact append opc
  | finalize => exact operandless (.inl opc)
  | compress => exact compress opc
  | setctr => exact operandless (.inr (.inl opc))
  | status => exact operandless (.inr (.inr opc))

theorem Mnemonic.Legal.decodeHeader_eq {m : Mnemonic} {hdr : Header} (h : m.Legal hdr) :
    decodeHeader hdr = m.form hdr := by
  obtain ⟨opc, rsv, clear⟩ := h
  cases m <;> simp_all [decodeHeader, Mnemonic.opcode, Mnemonic.OperandsClear, Mnemonic.form]

theorem decodeHeader_of_reserved {hdr : Header} (h : ReservedHeader hdr) : ∃ why, decodeHeader hdr = .illegal why := by
  unfold decodeHeader
  by_cases rsv : hdrRsv hdr = 0
  · rw [if_neg (not_not_intro rsv)]
    rw [reservedHeader_iff] at h
    rcases h with opc | hrsv | ⟨opc, bad⟩ | ⟨opc, bad⟩ | ⟨opc, bad⟩ | ⟨opc | opc | opc, bad⟩
    case inl =>
      split
      case h_7 => exact ⟨_, rfl⟩
      all_goals omega
    case inr.inl => exact absurd rsv hrsv
    case inr.inr.inl | inr.inr.inr.inl =>
      rw [opc]
      exact ⟨_, if_neg bad⟩
    all_goals
      rw [opc]
      exact ⟨_, if_neg (not_and_or.2 bad)⟩
  · exact ⟨_, if_pos rsv⟩

/-- Settles O3: a header that is not reserved is legal for some command, and decodes to it. -/
theorem headerIsIllegalExactlyWhenReserved : Obligations.HeaderIsIllegalExactlyWhenReserved := by
  intro hdr
  refine ⟨fun ⟨why, illegal⟩ => ?_, decodeHeader_of_reserved⟩
  by_contra hr
  obtain ⟨m, legal⟩ := exists_legal_of_not_reserved hr
  have := congrArg HeaderForm.mnemonic (legal.decodeHeader_eq.symm.trans illegal)
  rw [Mnemonic.form_mnemonic] at this
  cases this

/-! The masks of R66, field by field. -/

theorem joinFields_and (o r o' r' : BitVec 4) (a b c a' b' c' : Byte) :
    joinFields o r a b c &&& joinFields o' r' a' b' c' =
      joinFields (o &&& o') (r &&& r') (a &&& a') (b &&& b') (c &&& c') := by
  apply BitVec.eq_of_getLsbD_eq
  intro i _
  simp only [BitVec.getLsbD_and, joinFields_bit]
  repeat' split
  all_goals rfl

theorem joinFields_inj {o r o' r' : BitVec 4} {a b c a' b' c' : Byte} :
    joinFields o r a b c = joinFields o' r' a' b' c' ↔ o = o' ∧ r = r' ∧ a = a' ∧ b = b' ∧ c = c' := by
  refine ⟨fun h => ?_, by rintro ⟨rfl, rfl, rfl, rfl, rfl⟩; rfl⟩
  have fields := joinFields_fields o r a b c
  rw [h] at fields
  simpa [eq_comm] using fields

/-- A mask that keeps `OPC` and `RSV` asks for their values, and for zeros where it keeps operand bits. -/
theorem masked_eq_iff_fields (hdr : Header) (o : BitVec 4) (a b c : Byte) :
    hdr &&& joinFields 15 15 a b c = joinFields o 0 0 0 0 ↔
      hdrOpc hdr = o ∧ hdrRsv hdr = 0 ∧ hdrA hdr &&& a = 0 ∧ hdrBHigh hdr &&& b = 0 ∧ hdrBLow hdr &&& c = 0 := by
  have keep : ∀ v : BitVec 4, v &&& 15 = v := fun v => BitVec.and_allOnes
  conv_lhs => rw [header_eq_joinFields hdr, joinFields_and, joinFields_inj, keep, keep]

theorem append_eq_zero_iff {n m : Nat} (hi : BitVec n) (lo : BitVec m) : hi ++ lo = 0 ↔ hi = 0 ∧ lo = 0 := by
  rw [← BitVec.toNat_inj, toNat_append_eq_add]
  simp [← BitVec.toNat_inj, and_comm]

/-- `B` is its two bytes (R61, R62). -/
theorem hdrB_eq_append (hdr : Header) : hdrB hdr = hdrBHigh hdr ++ hdrBLow hdr :=
  (BitVec.extractLsb'_append_extractLsb'_eq_extractLsb' (start₁ := 0) (len₁ := 8) rfl).symm

theorem hdrB_eq_zero_iff (hdr : Header) : hdrB hdr = 0 ↔ hdrBHigh hdr = 0 ∧ hdrBLow hdr = 0 := by
  rw [hdrB_eq_append, append_eq_zero_iff]

/-- `B[15:1]` is `B` without its lowest bit (R62). -/
theorem hdrBUpper_eq_zero_iff (hdr : Header) :
    hdrBUpper hdr = 0 ↔ hdrBHigh hdr = 0 ∧ hdrBLow hdr &&& 0xFE = 0 := by
  have upper : hdrBUpper hdr = hdrBHigh hdr ++ hdr.extractLsb' 1 7 :=
    (BitVec.extractLsb'_append_extractLsb'_eq_extractLsb' (start₁ := 1) (len₁ := 7) rfl).symm
  have low : hdr.extractLsb' 1 7 = (hdrBLow hdr).extractLsb' 1 7 := by
    unfold hdrBLow
    apply BitVec.eq_of_getLsbD_eq
    intro i hi
    simp [hi]
  have masked : ∀ v : Byte, v.extractLsb' 1 7 = 0 ↔ v &&& 0xFE = 0 := by decide
  rw [upper, append_eq_zero_iff, low, masked]

/-- A row of the opcode map matches exactly the legal headers of its command. -/
theorem row_matches_iff_legal (hdr : Header) {row : OpcodeRow} (hrow : row ∈ opcodeTable) :
    hdr &&& row.mask = row.pattern ↔ row.mnemonic.Legal hdr := by
  have keep : ∀ v : Byte, v &&& 0xFF = v := fun v => BitVec.and_allOnes
  have drop : ∀ v : Byte, v &&& 0 = 0 := fun v => BitVec.and_zero
  rw [Mnemonic.legal_iff]
  simp only [opcodeTable, List.mem_cons, List.not_mem_nil, or_false] at hrow
  rcases hrow with rfl | rfl | rfl | rfl | rfl | rfl
  case' inl => refine (masked_eq_iff_fields hdr 1 0 0xFF 0).trans ?_
  case' inr.inl => refine (masked_eq_iff_fields hdr 2 0xFF 0 0).trans ?_
  case' inr.inr.inl => refine (masked_eq_iff_fields hdr 3 0xFF 0xFF 0xFF).trans ?_
  case' inr.inr.inr.inl => refine (masked_eq_iff_fields hdr 4 0xFF 0xFF 0xFE).trans ?_
  case' inr.inr.inr.inr.inl => refine (masked_eq_iff_fields hdr 5 0xFF 0xFF 0xFF).trans ?_
  case' inr.inr.inr.inr.inr => refine (masked_eq_iff_fields hdr 6 0xFF 0xFF 0xFF).trans ?_
  all_goals
    simp only [keep, drop, Mnemonic.opcode, Mnemonic.OperandsClear, hdrB_eq_zero_iff, hdrBUpper_eq_zero_iff, true_and,
      and_true]

theorem exists_row (m : Mnemonic) : ∃ row ∈ opcodeTable, row.mnemonic = m := by
  cases m <;> decide

theorem row_eq_of_mnemonic_eq :
    ∀ row ∈ opcodeTable, ∀ row' ∈ opcodeTable, row'.mnemonic = row.mnemonic → row' = row := by
  decide

/-- Settles O4: a row matches the legal headers of its command, and a header is legal for at most one. -/
theorem headerMatchesItsOneRowOrIsIllegal : Obligations.HeaderMatchesItsOneRowOrIsIllegal := by
  intro hdr
  by_cases reserved : ReservedHeader hdr
  · refine .inr ⟨reserved, decodeHeader_of_reserved reserved, fun row hrow hmatch => ?_⟩
    exact ((row_matches_iff_legal hdr hrow).1 hmatch).not_reserved reserved
  · obtain ⟨m, legal⟩ := exists_legal_of_not_reserved reserved
    obtain ⟨row, hrow, rfl⟩ := exists_row m
    refine .inl ⟨reserved, row, hrow, (row_matches_iff_legal hdr hrow).2 legal, ?_, fun row' hrow' hmatch => ?_⟩
    · rw [legal.decodeHeader_eq, Mnemonic.form_mnemonic]
    · exact row_eq_of_mnemonic_eq row hrow row' hrow' (((row_matches_iff_legal hdr hrow').1 hmatch).unique legal)

/-- Settles O5: the decoder run on each of the words. -/
theorem specWordsDecode : Obligations.SpecWordsDecode := by
  unfold Obligations.SpecWordsDecode
  decide

end Sys2Proof
end

section
/-!
PROOF. Bytes on the wire: what decodes to a command is its encoding, and the header tells where the command ends
(30_encoding.md R60, R63, R65, R68, R69).
-/

namespace Sys2Proof

open Machine

/-- Settles O1, by `decode_encode`. -/
theorem encodedCommandDecodesToItself : Obligations.EncodedCommandDecodesToItself :=
  fun _ hwf => decode_encode hwf

/-! The encoder writes back the bytes of the words it is given (R10, R42). -/

/-- Byte `j` of a word is the `j`-th of the bytes that form it. -/
theorem le64_byte (s : List Byte) (k : Nat) {j : Nat} (hj : j < 8) :
    (le64 s k).extractLsb' (8 * j) 8 = s.getD (8 * k + j) 0 := by
  unfold le64
  apply BitVec.eq_of_getLsbD_eq
  intro i hi
  simp only [BitVec.getLsbD_extractLsb', BitVec.getLsbD_append, hi, decide_true, Bool.true_and]
  interval_cases j <;> interval_cases i <;> rfl

theorem leBytes64_le64 (s : List Byte) (k : Nat) (hs : 8 * k + 8 ≤ s.length) :
    leBytes64 (le64 s k) = (s.drop (8 * k)).take 8 := by
  have bytes : leBytes64 (le64 s k) = (List.range 8).map fun j => (le64 s k).extractLsb' (8 * j) 8 := rfl
  rw [bytes]
  apply List.ext_getElem
  · simp
    omega
  · intro j hj _
    have hj8 : j < 8 := by simpa using hj
    have hjs : 8 * k + j < s.length := by omega
    simp [le64_byte s k hj8, hjs]

theorem leBytes_le64Words (n : Nat) (s : List Byte) (hs : 8 * n ≤ s.length) :
    leBytes (le64Words n s 0) = s.take (8 * n) := by
  apply List.ext_getElem?
  intro p
  rcases Nat.lt_or_ge p (8 * n) with hp | hp
  · have hi : p / 8 < n := by omega
    have hj : p % 8 < 8 := Nat.mod_lt p (by decide)
    have word : (le64Words n s 0)[p / 8] = le64 s (p / 8) := by simp [le64Words]
    have bytes := leBytes_getElem? (le64Words n s 0) (p / 8) (p % 8) hi hj
    rw [word, leBytes64_le64 s (p / 8) (by omega), List.getElem?_take_of_lt hj, List.getElem?_drop,
      Nat.div_add_mod] at bytes
    rw [bytes, List.getElem?_take_of_lt hp]
  · rw [List.getElem?_eq_none (by simpa using hp), List.getElem?_eq_none (by simp; omega)]

theorem padTo_toList_of_le {n : Nat} (s : List Byte) (h : n ≤ s.length) : (padTo n s).toList = s.take n := by
  apply List.ext_getElem
  · simp [h]
  · intro i hi _
    have : i < n := by simpa using hi
    have : i < s.length := by omega
    simp [this]

/-- The payload of COMPRESS is its four parts, one behind the other (R63). -/
theorem compress_payload_parts (payload : List Byte) (hlen : payload.length = 208) :
    leBytes (le64Words 8 payload 0) ++ (padTo 128 (payload.drop 64)).toList ++ leBytes64 (le64 payload 24) ++
      leBytes64 (le64 payload 25) = payload := by
  rw [leBytes_le64Words 8 payload (by omega), padTo_toList_of_le _ (by simp; omega),
    leBytes64_le64 payload 24 (by omega), leBytes64_le64 payload 25 (by omega), ← List.take_add, ← List.take_add,
    ← List.take_add]
  exact List.take_of_length_le (by omega)

theorem setctr_payload_parts (payload : List Byte) (hlen : payload.length = 16) :
    leBytes64 (le64 payload 0) ++ leBytes64 (le64 payload 1) = payload := by
  rw [leBytes64_le64 payload 0 (by omega), leBytes64_le64 payload 1 (by omega), Nat.mul_zero, List.drop_zero,
    ← List.take_add]
  exact List.take_of_length_le (by omega)

theorem encodeHeader_compress (h : HashState) (block : Block) (t0 t1 : Word) (last : Bool) :
    encodeHeader (.compress h block t0 t1 last) = joinFields 4 0 0 0 ((BitVec.ofBool last).setWidth 8) := by
  cases last <;> simp only [encodeHeader] <;> decide

/-- A byte whose upper seven bits are zero is its lowest bit. -/
theorem eq_ofBool_of_masked : ∀ v : Byte, v &&& 0xFE = 0 → v = (BitVec.ofBool (v.getLsbD 0)).setWidth 8 := by
  decide

/-- A legal header is its opcode and its operand fields (R61, R62). -/
theorem Mnemonic.Legal.hdr_eq {m : Mnemonic} {hdr : Header} (h : m.Legal hdr) :
    hdr = joinFields m.opcode 0 (hdrA hdr) (hdrBHigh hdr) (hdrBLow hdr) := by
  rw [← h.opc, ← h.rsv]
  exact header_eq_joinFields hdr

/-! A legal header, with the payload it announces, encodes the command that the decoder reads from them. -/

section

variable {m : Mnemonic} {hdr : Header} {payload : List Byte} {i : Instr}

theorem Mnemonic.Legal.wellFormed (h : m.Legal hdr) (hlen : payload.length = payloadLength hdr)
    (hdec : decodePayload (m.form hdr) payload = .instr i) : i.WellFormed := by
  rw [payloadLength, h.opc] at hlen
  cases m <;> cases hdec
  case append =>
    have length : payload.length = (hdrB hdr).toNat := hlen
    have := (hdrB hdr).isLt
    simp only [Instr.WellFormed, Instr.wellFormed, decide_eq_true_eq]
    omega
  all_goals rfl

/-- The operands in the header come back to their fields (R62, R65). -/
theorem Mnemonic.Legal.encodeHeader_eq (h : m.Legal hdr) (hlen : payload.length = payloadLength hdr)
    (hdec : decodePayload (m.form hdr) payload = .instr i) : encodeHeader i = hdr := by
  have fields := h.hdr_eq
  obtain ⟨opc, -, clear⟩ := h
  rw [payloadLength, opc] at hlen
  cases m <;> cases hdec
  case setup =>
    have high : hdrBHigh hdr = 0 := clear
    rw [high] at fields
    exact (encodeHeader_setup _ _ _).trans fields.symm
  case append =>
    have length : payload.length = (hdrB hdr).toNat := hlen
    have clearA : hdrA hdr = 0 := clear
    rw [clearA] at fields
    rw [encodeHeader_append, length, BitVec.ofNat_toNat, BitVec.setWidth_eq, hdrB_eq_append,
      BitVec.extractLsb'_append_eq_left, BitVec.extractLsb'_append_eq_right]
    exact fields.symm
  case compress =>
    obtain ⟨clearA, upper⟩ : hdrA hdr = 0 ∧ hdrBUpper hdr = 0 := clear
    obtain ⟨high, low⟩ := (hdrBUpper_eq_zero_iff hdr).1 upper
    have last : (hdrBLow hdr).getLsbD 0 = hdrLast hdr := by simp [hdrBLow, hdrLast]
    rw [clearA, high] at fields
    rw [encodeHeader_compress, ← last, ← eq_ofBool_of_masked _ low]
    exact fields.symm
  case finalize | setctr | status =>
    obtain ⟨clearA, clearB⟩ : hdrA hdr = 0 ∧ hdrB hdr = 0 := clear
    obtain ⟨high, low⟩ := (hdrB_eq_zero_iff hdr).1 clearB
    rw [clearA, high, low] at fields
    exact fields.symm

/-- No byte of the payload is dropped (R63). -/
theorem Mnemonic.Legal.encodePayload_eq (h : m.Legal hdr) (hlen : payload.length = payloadLength hdr)
    (hdec : decodePayload (m.form hdr) payload = .instr i) : encodePayload i = payload := by
  rw [payloadLength, h.opc] at hlen
  cases m <;> cases hdec
  case setup =>
    have length : payload.length = 64 := hlen
    exact (padTo_toList_of_le payload length.ge).trans (List.take_of_length_le length.le)
  case append => rfl
  case compress => exact compress_payload_parts payload hlen
  case setctr => exact setctr_payload_parts payload hlen
  case finalize | status => exact (List.eq_nil_of_length_eq_zero hlen).symm

end

/-- Settles O2: the header is legal, and encodes the command with its payload. -/
theorem decodedCommandIsEncodedByItsBytes : Obligations.DecodedCommandIsEncodedByItsBytes := by
  intro bytes i hdec
  have framed : WellFramed bytes := (wellFramed_iff bytes).2 (by rw [hdec]; nofun)
  obtain ⟨hdr, payload, rfl, hlen⟩ := framed
  rw [owedLength_eq] at hlen
  rw [decode_header_payload, if_pos hlen] at hdec
  by_cases reserved : ReservedHeader hdr
  · obtain ⟨why, illegal⟩ := decodeHeader_of_reserved reserved
    rw [illegal] at hdec
    cases hdec
  · obtain ⟨m, legal⟩ := exists_legal_of_not_reserved reserved
    rw [legal.decodeHeader_eq] at hdec
    refine ⟨legal.wellFormed hlen hdec, ?_⟩
    rw [encode, legal.encodeHeader_eq hlen hdec, legal.encodePayload_eq hlen hdec]

theorem cutCommand_header_payload (hdr : Header) (rest : List Byte) (h : payloadLength hdr ≤ rest.length) :
    cutCommand (leBytes32 hdr ++ rest) =
      some (leBytes32 hdr ++ rest.take (payloadLength hdr), rest.drop (payloadLength hdr)) := by
  simp [cutCommand, leBytes32, h]

/-- Settles O6: the header gives the number of bytes to cut off. -/
theorem streamIsCutAfterItsFirstCommand : Obligations.StreamIsCutAfterItsFirstCommand := by
  rintro bytes rest ⟨hdr, payload, rfl, hlen⟩
  rw [owedLength_eq] at hlen
  rw [List.append_assoc, cutCommand_header_payload hdr _ (by simp [hlen]), ← hlen, List.take_left, List.drop_left]

end Sys2Proof
end

section
/-!
PROOF. What the core answers: it stops at ill-framed bytes only, and sends one response for each command
(30_encoding.md R60, R64, R74; 60_exceptions.md R143, R147, R148).
-/

namespace Sys2Proof

open Machine

/-- A step goes on, unless the bytes it is given are no command (R74, R143, R148). -/
theorem step_answers_or_refuses (s : State) :
    (∃ bytes rest, s.inbox = .command bytes :: rest ∧ ¬ WellFramed bytes ∧ step s = .refused .illFramed) ∨
    ((∀ bytes rest, s.inbox = .command bytes :: rest → WellFramed bytes) ∧ ∃ s', step s = .next s') := by
  rcases hin : s.inbox with _ | ⟨⟨bytes⟩ | _, rest⟩
  · exact .inr ⟨nofun, s, step_idle hin⟩
  · rw [step_command hin]
    by_cases framed : WellFramed bytes
    · refine .inr ⟨by rintro _ _ ⟨⟩; exact framed, ?_⟩
      rw [wellFramed_iff] at framed
      cases hd : decode bytes with
      | instr i => exact exec_answers i _
      | illegal why => exact ⟨_, rfl⟩
      | illFramed => exact absurd hd framed
    · refine .inl ⟨bytes, rest, rfl, framed, ?_⟩
      rw [wellFramed_iff, not_not] at framed
      rw [framed]
      rfl
  · exact .inr ⟨nofun, _, step_reset hin⟩

/-- Settles O10, by `step_answers_or_refuses`. -/
theorem onlyIllFramedCommandsStopTheCore : Obligations.OnlyIllFramedCommandsStopTheCore := by
  intro s
  rcases step_answers_or_refuses s with ⟨bytes, rest, hin, illFramed, hstep⟩ | ⟨framed, s', hstep⟩
  · rw [hstep]
    refine ⟨nofun, fun r => ⟨?_, ?_⟩⟩
    · rintro ⟨⟩
      exact ⟨rfl, bytes, rest, hin, illFramed⟩
    · rintro ⟨rfl, -⟩
      rfl
  · rw [hstep]
    refine ⟨nofun, fun r => ⟨nofun, ?_⟩⟩
    rintro ⟨-, bytes, rest, hin, illFramed⟩
    exact absurd (framed bytes rest hin) illFramed

/-- Settles O11: a command by `exec_outbox`, an illegal header by its BADCMD. -/
theorem everyCommandGetsOneResponse : Obligations.EveryCommandGetsOneResponse := by
  intro s s' bytes rest hin hstep
  rw [step_command hin] at hstep
  cases hd : decode bytes with
  | instr i =>
    rw [hd] at hstep
    obtain ⟨inbox, -⟩ := exec_host_and_flags_frame (s := { s with inbox := rest }) hstep
    exact ⟨inbox, exec_outbox (s := { s with inbox := rest }) hstep⟩
  | illegal why =>
    rw [hd] at hstep
    cases hstep
    exact ⟨by simp, ⟨.badCmd, []⟩, by simp, fun _ => rfl⟩
  | illFramed =>
    rw [hd] at hstep
    cases hstep

end Sys2Proof
end

section
/-!
PROOF. Messages cut into APPENDs, and the host's pseudo-commands APPENDL and HASH (30_encoding.md R71, R72; 41_hasher.md
R108 to R110; 93_implementation_defined.md U10).
-/

namespace Sys2Proof

open Machine

/-! APPENDL (R71). -/

/-- The answers do not touch the hasher, so consecutive APPENDs take in their bytes as one would (R110). -/
theorem execAll_appends (chunks : List (List Byte)) {s : State} (hp : s.phase = .ready) :
    execAll (chunks.map .append) s =
      .next { appendBytes chunks.flatten s with
        outbox := s.outbox ++ List.replicate chunks.length ⟨.ok, []⟩ } := by
  induction chunks generalizing s with
  | nil => simp
  | cons x xs ih =>
    have answered : respond .ok [] (appendBytes x s) =
        { appendBytes x s with outbox := s.outbox ++ [⟨.ok, []⟩] } := by
      rw [respond, appendBytes_outbox]
    rw [List.map_cons, execAll_cons, exec_append_ready x hp, andThen_next, ih (by simpa), answered,
      appendBytes_withOutbox, List.flatten_cons, appendBytes_append, List.append_assoc]
    rfl

theorem length_le_of_mem_pieces {n : Nat} {bytes p : List Byte} (h : p ∈ pieces n bytes) : p.length ≤ 65535 := by
  induction n generalizing bytes with
  | zero => cases h
  | succ n ih =>
    rw [pieces] at h
    split at h
    · cases h
    · rcases List.mem_cons.1 h with rfl | h
      · exact List.length_take_le _ _
      · exact ih h

/-- No byte is lost where the bound on the number of pieces is the number of bytes. -/
theorem pieces_flatten {n : Nat} {bytes : List Byte} (h : bytes.length ≤ n) : (pieces n bytes).flatten = bytes := by
  induction n generalizing bytes with
  | zero => rw [List.eq_nil_of_length_eq_zero (Nat.le_zero.1 h)]; rfl
  | succ n ih =>
    rw [pieces]
    split
    next hnil => rw [hnil]; rfl
    next hne =>
      have := List.length_pos_iff.2 hne
      rw [List.flatten_cons, ih (by simp; omega), List.take_append_drop]

theorem appendl_wellFormed {bytes : List Byte} {i : Instr} (h : i ∈ appendl bytes) : i.WellFormed := by
  obtain ⟨p, hp, rfl⟩ := List.mem_map.1 h
  simpa [Instr.WellFormed, Instr.wellFormed] using length_le_of_mem_pieces hp

theorem execAll_appendl (bytes : List Byte) {s : State} (hp : s.phase = .ready) :
    execAll (appendl bytes) s =
      .next { appendBytes bytes s with
        outbox := s.outbox ++ List.replicate (appendl bytes).length ⟨.ok, []⟩ } := by
  rw [appendl, execAll_appends _ hp, pieces_flatten (Nat.le_refl _), List.length_map]

/-- Settles O58, by `appendl_wellFormed` and `execAll_appendl`. -/
theorem appendlIsOneLongAppend : Obligations.AppendlIsOneLongAppend := by
  intro bytes s hp
  exact ⟨fun _ => appendl_wellFormed, _, _, execAll_appendl bytes hp, exec_append_ready bytes hp, rfl⟩

/-! The end of a computation: FINALIZE on the input taken in (R107 to R109). -/

theorem blockCount_sub_one (len : Nat) : blockCount len - 1 = doneBlocks len := by
  unfold blockCount doneBlocks
  omega

theorem AbsorbedBy.counter_finishHash {h : HashState} {input : List Byte} {s : State} (ha : AbsorbedBy h input s) :
    counter (finishHash s) = BitVec.ofNat 128 input.length := by
  have fill := ha.tookBlocks.fill
  have amount : (BitVec.ofNat 64 s.c.val).setWidth 128 = BitVec.ofNat 128 s.c.val := by
    apply BitVec.eq_of_toNat_eq
    have := s.c.isLt
    simp
    omega
  rw [finishHash_counter, counter_ctrAdd, ha.count, amount, ← BitVec.ofNat_add, Nat.add_comm, fill]

/-- The last compression is that of the closed form (R109). -/
theorem AbsorbedBy.finishHash_h {h : HashState} {input : List Byte} {s : State} (ha : AbsorbedBy h input s) :
    (finishHash s).h = finalState h input := by
  have count := ha.counter_finishHash
  rw [finishHash_counter] at count
  rw [Machine.finishHash_h, count, ha.hash, ha.staged, finalState, blockCount_sub_one]

theorem AbsorbedBy.withOutbox {h : HashState} {input : List Byte} {s : State} (ha : AbsorbedBy h input s)
    (out : List Response) : AbsorbedBy h input { s with outbox := out } :=
  { ha with }

/-- FINALIZE answers the digest of the closed form (R108, R109). -/
theorem AbsorbedBy.digest_finishHash {nn kk : Byte} {key : Vector Byte 64} {msg : List Byte} {s : State}
    (ha : AbsorbedBy (initHash nn kk) (inputOf kk key msg) s) (hnn : s.nn = nn) :
    digest (finishHash s) = referenceDigest nn kk key msg := by
  rw [digest, ha.finishHash_h, finishHash_nn, hnn, referenceDigest]

/-! HASH (R72). -/

theorem lastCode_respond (code : RespCode) (payload : List Byte) (s : State) :
    lastCode (respond code payload s) = some code := by
  simp [lastCode]

/-- HASH goes by the answer to its SETUP (R72, C5). -/
theorem hostHash_of_setup (msg : List Byte) {key : List Byte} {nn : Byte} {s s' : State} (hlen : key.length ≤ 255)
    (hexec : exec (.setup nn (BitVec.ofNat 8 key.length) (padTo 64 key)) s = .next s') :
    hostHash msg key nn s =
      if lastCode s' = some .configError then .fault .hashConfigError else execAll (appendl msg ++ [.finalize]) s' := by
  rcases hostHash_cases msg key nn s with ⟨long, -⟩ | ⟨-, t, hexec', outcome⟩
  · omega
  · rw [hexec] at hexec'
    cases hexec'
    rcases outcome with ⟨error, hash⟩ | ⟨accepted, hash⟩
    · rw [hash, if_pos error]
    · rw [hash, if_neg accepted]

theorem exec_setup_invalid {nn kk : Byte} (key : Vector Byte 64) (s : State) (hinvalid : configValid nn kk = false) :
    exec (.setup nn kk key) s = .next (raise .configError (setPhase .unconfigured s)) := by
  simp only [exec, execSetup, hinvalid, Bool.false_eq_true, if_false]

/-- A key length that `KK` can hold is in range exactly when SETUP accepts it. -/
theorem configValid_ofNat {nn : Byte} {len : Nat} (hlen : len ≤ 255) :
    configValid nn (BitVec.ofNat 8 len) = true ↔ 1 ≤ nn.toNat ∧ nn.toNat ≤ 64 ∧ len ≤ 64 := by
  rw [configValid_iff, BitVec.toNat_ofNat, Nat.mod_eq_of_lt (by omega)]

theorem inputOf_append (kk : Byte) (key : Vector Byte 64) (msg : List Byte) :
    inputOf kk key [] ++ msg = inputOf kk key msg := by
  simp [inputOf]

/-- A message in any chunks, and then FINALIZE, onto the state that SETUP leaves: the answer is the digest of the closed
form (R109, R110). -/
theorem execAll_chunks_finalize {nn kk : Byte} {key : Vector Byte 64} {s : State} (chunks : List (List Byte))
    (ha : AbsorbedBy (initHash nn kk) (inputOf kk key []) s) (hnn : s.nn = nn) :
    ∃ u, AbsorbedBy (initHash nn kk) (inputOf kk key chunks.flatten) u ∧
      u.outbox = s.outbox ++ List.replicate chunks.length ⟨.ok, []⟩ ∧
      execAll (chunks.map .append ++ [.finalize]) s =
        .next (respond .ok (referenceDigest nn kk key chunks.flatten) (finishHash u)) := by
  have absorbed : AbsorbedBy (initHash nn kk) (inputOf kk key chunks.flatten)
      { appendBytes chunks.flatten s with outbox := s.outbox ++ List.replicate chunks.length ⟨.ok, []⟩ } := by
    rw [← inputOf_append]
    exact (ha.appendBytes chunks.flatten).withOutbox _
  refine ⟨_, absorbed, rfl, ?_⟩
  rw [execAll_append, execAll_appends chunks ha.phase, andThen_next, execAll_cons, exec_finalize_ready absorbed.phase,
    absorbed.digest_finishHash (by simpa using hnn)]
  rfl

theorem hostHash_of_valid (msg : List Byte) {key : List Byte} {nn : Byte} (s : State) (hlen : key.length ≤ 255)
    (hvalid : configValid nn (BitVec.ofNat 8 key.length) = true) :
    ∃ t, hostHash msg key nn s = .next t ∧
      t.outbox.getLast? = some ⟨.ok, referenceDigest nn (BitVec.ofNat 8 key.length) (padTo 64 key) msg⟩ := by
  have setup := exec_setup_valid (padTo 64 key) s hvalid
  have absorbed := (setup_absorbedBy nn (BitVec.ofNat 8 key.length) (padTo 64 key) s).respond .ok []
  obtain ⟨u, -, -, run⟩ := execAll_chunks_finalize (pieces msg.length msg) absorbed (by simp)
  rw [pieces_flatten (Nat.le_refl _)] at run
  rw [hostHash_of_setup msg hlen setup, lastCode_respond]
  exact ⟨_, run, by simp⟩

theorem hostHash_of_invalid (msg : List Byte) {key : List Byte} {nn : Byte} (s : State) (hlen : key.length ≤ 255)
    (hinvalid : configValid nn (BitVec.ofNat 8 key.length) = false) :
    hostHash msg key nn s = .fault .hashConfigError := by
  rw [hostHash_of_setup msg hlen (exec_setup_invalid _ s hinvalid), raise, lastCode_respond]
  rfl

/-- Settles O59: SETUP accepts the operands, rejects them, or has no header. -/
theorem hashReturnsTheDigestOrReportsTheError : Obligations.HashReturnsTheDigestOrReportsTheError := by
  intro msg key nn s
  refine ⟨fun valid => ?_, fun invalid hlen => ?_, fun long => ?_⟩
  · have hlen : key.length ≤ 255 := by omega
    exact hostHash_of_valid msg s hlen ((configValid_ofNat hlen).2 valid)
  · rw [← configValid_ofNat hlen, Bool.not_eq_true] at invalid
    exact ⟨hostHash_of_invalid msg s hlen invalid, exec_setup_invalid _ s invalid⟩
  · rcases hostHash_cases msg key nn s with ⟨-, unencodable⟩ | ⟨hlen, -⟩
    · exact unencodable
    · omega

end Sys2Proof
end

section
/-!
PROOF. Rotation and the mixing operation G (40_compression.md R82 to R84).
-/

namespace Sys2Proof.Machine

theorem rotr64_eq_rotateRight (x : Word) {n : Nat} (h : n < 64) : rotr64 x n = x.rotateRight n := by
  rw [rotr64, BitVec.rotateRight_def, Nat.mod_eq_of_lt h]

/-- Settles O15: a bit of the rotation comes from `n` places above, or from the low end where there are not so many. -/
theorem rotationMovesEachBit : Obligations.RotationMovesEachBit := by
  refine ⟨fun x n i _ hn hi => ?_, fun x => ?_⟩
  · rw [rotr64_eq_rotateRight x hn, BitVec.getLsbD_rotateRight, Nat.mod_eq_of_lt hn]
    rcases Nat.lt_or_ge i (64 - n) with stays | wraps
    · have source : (i + n) % 64 = n + i := by omega
      simp [stays, source]
    · have source : (i + n) % 64 = i - (64 - n) := by omega
      simp [wraps.not_gt, source, hi]
  · rw [rotr64, BitVec.rotateLeft_def, BitVec.or_comm]

/-- The words `p, q, r, s` stand in `V[a], V[b], V[c], V[d]`, at four distinct indices (R83). -/
structure HoldsWords (v : Work) (a b c d : Fin 16) (p q r s : Word) : Prop where
  distinct : [a, b, c, d].Nodup
  a : v[a] = p
  b : v[b] = q
  c : v[c] = r
  d : v[d] = s

theorem holdsWords_self (v : Work) {a b c d : Fin 16} (distinct : [a, b, c, d].Nodup) :
    HoldsWords v a b c d v[a] v[b] v[c] v[d] :=
  ⟨distinct, rfl, rfl, rfl, rfl⟩

namespace HoldsWords

variable {v : Work} {a b c d : Fin 16} {p q r s : Word}

/-- No index is special: by rotation, what is said of the first holds of each. -/
theorem rotate (h : HoldsWords v a b c d p q r s) : HoldsWords v b c d a q r s p where
  distinct := List.nodup_rotate (n := 1).2 h.distinct
  a := h.b
  b := h.c
  c := h.d
  d := h.a

theorem set_a (h : HoldsWords v a b c d p q r s) (z : Word) : HoldsWords (v.set a z) a b c d z q r s := by
  obtain ⟨distinct, -, hb, hc, hd⟩ := h
  refine ⟨distinct, Vector.getElem_set_self a.isLt, ?_, ?_, ?_⟩ <;> grind

theorem set_b (h : HoldsWords v a b c d p q r s) (z : Word) : HoldsWords (v.set b z) a b c d p z r s :=
  (h.rotate.set_a z).rotate.rotate.rotate

theorem set_c (h : HoldsWords v a b c d p q r s) (z : Word) : HoldsWords (v.set c z) a b c d p q z s :=
  (h.rotate.set_b z).rotate.rotate.rotate

theorem set_d (h : HoldsWords v a b c d p q r s) (z : Word) : HoldsWords (v.set d z) a b c d p q r z :=
  (h.rotate.set_c z).rotate.rotate.rotate

/-! R83 has four kinds of step. For each, the word it writes, said of the words that stood there before it. -/

theorem step_a (h : HoldsWords v a b c d p q r s) (x : Word) :
    HoldsWords (v.set a (v[a] + v[b] + x)) a b c d (p + q + x) q r s := by
  rw [h.a, h.b]
  exact h.set_a _

theorem step_d (h : HoldsWords v a b c d p q r s) (n : Nat) :
    HoldsWords (v.set d (rotr64 (v[d] ^^^ v[a]) n)) a b c d p q r (rotr64 (s ^^^ p) n) := by
  rw [h.d, h.a]
  exact h.set_d _

theorem step_c (h : HoldsWords v a b c d p q r s) : HoldsWords (v.set c (v[c] + v[d])) a b c d p q (r + s) s := by
  rw [h.c, h.d]
  exact h.set_c _

theorem step_b (h : HoldsWords v a b c d p q r s) (n : Nat) :
    HoldsWords (v.set b (rotr64 (v[b] ^^^ v[c]) n)) a b c d p (rotr64 (q ^^^ r) n) r s := by
  rw [h.b, h.c]
  exact h.set_b _

end HoldsWords

theorem mixG_getElem_of_notMem (v : Work) {a b c d j : Fin 16} (x y : Word) (outside : j ∉ [a, b, c, d]) :
    (mixG v a b c d x y)[j] = v[j] := by
  simp only [List.mem_cons, List.not_mem_nil, or_false, not_or] at outside
  obtain ⟨ha, hb, hc, hd⟩ := outside
  exact mixG_getElem_other v a b c d j x y ha hb hc hd

/-- Settles O17: the eight steps one after the other. -/
theorem mixingOperationFollowsItsEightSteps : Obligations.MixingOperationFollowsItsEightSteps := by
  intro v a b c d x y distinct a1 d1 c1 b1 a2 d2 c2 b2 v'
  have half : HoldsWords _ a b c d a1 b1 c1 d1 :=
    (((holdsWords_self v distinct).step_a x).step_d 32).step_c.step_b 24
  have whole : HoldsWords v' a b c d a2 b2 c2 d2 := ((half.step_a y).step_d 16).step_c.step_b 63
  exact ⟨whole.a, whole.b, whole.c, whole.d, fun _ => mixG_getElem_of_notMem v x y⟩

/-- A mixing operation reads no word but its four, so a word after it depends on these and on itself only (R83). -/
theorem mixG_getElem_congr {v w : Work} {a b c d j : Fin 16} (x y : Word) (distinct : [a, b, c, d].Nodup)
    (agree : ∀ k ∈ [j, a, b, c, d], v[k] = w[k]) : (mixG v a b c d x y)[j] = (mixG w a b c d x y)[j] := by
  simp only [List.forall_mem_cons] at agree
  obtain ⟨hj, ha, hb, hc, hd, -⟩ := agree
  obtain ⟨va, vb, vc, vd, -⟩ := mixingOperationFollowsItsEightSteps v a b c d x y distinct
  obtain ⟨wa, wb, wc, wd, -⟩ := mixingOperationFollowsItsEightSteps w a b c d x y distinct
  by_cases written : j ∈ [a, b, c, d]
  · simp only [List.mem_cons, List.not_mem_nil, or_false] at written
    rcases written with rfl | rfl | rfl | rfl
    · rw [va, wa, ha, hb, hc, hd]
    · rw [vb, wb, ha, hb, hc, hd]
    · rw [vc, wc, ha, hb, hc, hd]
    · rw [vd, wd, ha, hb, hc, hd]
  · rw [mixG_getElem_of_notMem v x y written, mixG_getElem_of_notMem w x y written, hj]

/-- In a word that one of two disjoint mixing operations leaves alone, their order cannot be seen. -/
theorem mixG_comm_getElem (v : Work) {a b c d a' b' c' d' j : Fin 16} (x y x' y' : Word)
    (distinct : [a, b, c, d].Nodup) (disjoint : [a, b, c, d].Disjoint [a', b', c', d'])
    (outside : j ∉ [a', b', c', d']) :
    (mixG (mixG v a b c d x y) a' b' c' d' x' y')[j] = (mixG (mixG v a' b' c' d' x' y') a b c d x y)[j] := by
  have untouched : ∀ k ∈ [j, a, b, c, d], v[k] = (mixG v a' b' c' d' x' y')[k] := by
    intro k hk
    have : k ∉ [a', b', c', d'] := by
      rcases List.mem_cons.1 hk with rfl | hk
      · exact outside
      · exact disjoint hk
    exact (mixG_getElem_of_notMem v x' y' this).symm
  rw [mixG_getElem_of_notMem _ x' y' outside]
  exact mixG_getElem_congr x y distinct untouched

/-- Settles O18: each word is left alone by one of the two operations, whose place then does not matter. -/
theorem disjointMixingOperationsCommute : Obligations.DisjointMixingOperationsCommute := by
  intro v a b c d a' b' c' d' x y x' y' nodup
  obtain ⟨distinct, distinct', disjoint⟩ :=
    List.nodup_append'.1 (show ([a, b, c, d] ++ [a', b', c', d']).Nodup from nodup)
  have word : ∀ j : Fin 16, (mixG (mixG v a b c d x y) a' b' c' d' x' y')[j] =
      (mixG (mixG v a' b' c' d' x' y') a b c d x y)[j] := by
    intro j
    by_cases second : j ∈ [a', b', c', d']
    · exact (mixG_comm_getElem v x' y' x y distinct' disjoint.symm (disjoint.symm second)).symm
    · exact mixG_comm_getElem v x y x' y' distinct disjoint second
  exact Vector.ext fun i hi => by simpa only [Fin.getElem_fin] using word ⟨i, hi⟩

end Sys2Proof.Machine
end

section
/-!
PROOF. SIGMA, the rounds, the compression and the command COMPRESS (40_compression.md R81, R84 to R87).
-/

namespace Sys2Proof.Machine

/-- Settles O16: each of the 160 entries is looked up. -/
theorem sigmaRowsArePermutations : Obligations.SigmaRowsArePermutations := by
  unfold Obligations.SigmaRowsArePermutations
  decide

theorem roundCalls_length (s : Vector (Fin 16) 16) : (roundCalls s).length = 8 := rfl

theorem mixRound_eq_foldl (v m : Work) (s : Vector (Fin 16) 16) :
    mixRound v m s = (roundCalls s).foldl (GCall.run m) v := rfl

/-- Settles O20: 12 rounds of 8 calls each. -/
theorem roundsAreNinetySixFixedMixingOperations : Obligations.RoundsAreNinetySixFixedMixingOperations := by
  refine ⟨?_, fun v m => ?_⟩
  · simp [compressionCalls, List.length_flatMap, roundCalls_length]
  · simp only [mixRounds, mixRound_eq_foldl, compressionCalls, List.foldl_flatMap]

/-- Settles O19, with the arrays that `compress` itself builds, read word by word. -/
theorem compressionFollowsItsSixSteps : Obligations.CompressionFollowsItsSixSteps := by
  intro h block t last
  refine ⟨initWork h t last, messageWords block, mixRounds (initWork h t last) (messageWords block),
    fun i => ?_, ?_, ?_, ?_, ?_, ?_, ?_, ?_, ?_, fun k => messageWords_getElem block k k.isLt, rfl,
    fun i => compress_getElem h block t last i i.isLt⟩
  · rw [initWork_getElem, dif_pos i.isLt]
    rfl
  all_goals
    rw [initWork_getElem]
    rfl

/-- Settles O21: the flag by the definition of `initWork`, the counter by `initWork_getElem`. -/
theorem flagAndCounterEnterThroughTheirOwnWords : Obligations.FlagAndCounterEnterThroughTheirOwnWords := by
  intro h t t' last
  refine ⟨by simp [initWork], fun j h12 h13 => ?_, ?_, ?_⟩
  · have n12 : j.val ≠ 12 := fun e => h12 (Fin.ext e)
    have n13 : j.val ≠ 13 := fun e => h13 (Fin.ext e)
    simp only [Fin.getElem_fin, initWork_getElem, n12, n13, if_false]
  · simp [initWork_getElem]
  · simp [initWork_getElem]

/-- Settles O22: three closed compressions, each evaluated on its own. -/
theorem emptyMessageStateIsTheKnownAnswer : Obligations.EmptyMessageStateIsTheKnownAnswer := by
  refine ⟨?_, ?_, ?_⟩
  · decide +kernel
  · decide +kernel
  · decide +kernel

/-- Settles O23: this is the meaning of COMPRESS. -/
theorem compressAnswersAndChangesNoRegister : Obligations.CompressAnswersAndChangesNoRegister :=
  fun _ _ _ _ _ _ => rfl

end Sys2Proof.Machine
end

section
/-!
PROOF. The hasher from SETUP to FINALIZE: any split of the message, and the digest of the closed form (41_hasher.md R108
to R111).
-/

namespace Sys2Proof

open Machine

/-- The digest does not depend on the responses sent so far. -/
theorem digest_finishHash_withOutbox (s : State) (out : List Response) :
    digest (finishHash { s with outbox := out }) = digest (finishHash s) := rfl

/-- Settles O34: consecutive APPENDs are one but for their responses (`execAll_appends`), and FINALIZE reads none of
those. -/
theorem splittingAMessageDoesNotMatter : Obligations.SplittingAMessageDoesNotMatter := by
  intro chunks s hp
  have ready : (appendBytes chunks.flatten s).phase = .ready := by rw [appendBytes_phase, hp]
  refine ⟨_, _, execAll_appends chunks hp, exec_append_ready _ hp, rfl, _, _,
    ⟨.ok, digest (finishHash (appendBytes chunks.flatten s))⟩, exec_finalize_ready ready, exec_finalize_ready ready,
    ?_, ?_⟩
  · rw [respond_outbox, finishHash_outbox, digest_finishHash_withOutbox]
  · rw [respond_outbox, finishHash_outbox]
    rfl

/-- Settles O51: SETUP takes in the key block, the APPENDs the message, and FINALIZE answers the closed form of what was
taken in. -/
theorem computationReturnsTheReferenceDigest : Obligations.ComputationReturnsTheReferenceDigest := by
  intro nn kk key chunks s hnn hnn' hkk
  have valid := (configValid_iff nn kk).2 ⟨hnn, hnn', hkk⟩
  have absorbed := (setup_absorbedBy nn kk key s).respond .ok []
  obtain ⟨u, took, answers, run⟩ := execAll_chunks_finalize chunks absorbed (by simp)
  refine ⟨respond .ok (referenceDigest nn kk key chunks.flatten) (finishHash u), ?_, ?_, rfl,
    took.counter_finishHash⟩
  · rw [execAll_cons, exec_setup_valid key s valid, andThen_next, run]
  · simp [answers, List.replicate_succ]

end Sys2Proof
end

section
/-!
PROOF. The counter, and what one APPEND counts: its compressions, its fill length and its counter (41_hasher.md R102,
R105, R106; 42_control.md R131).
-/

namespace Sys2Proof.Machine

/-- Settles O25, by `counter_ctrAdd`; the frame is the definition of `ctrAdd`. -/
theorem counterAdvanceIsAdditionModulo : Obligations.CounterAdvanceIsAdditionModulo :=
  fun n s => ⟨counter_ctrAdd n s, rfl⟩

/-- The counter determines its two words (R22). -/
theorem words_eq_of_counter_eq {s s' : State} (h : counter s = counter s') : s.t0 = s'.t0 ∧ s.t1 = s'.t1 := by
  have value := congrArg BitVec.toNat h
  simp only [counter, toNat_append_eq_add] at value
  have low := s.t0.isLt
  have low' := s'.t0.isLt
  exact ⟨BitVec.eq_of_toNat_eq (by omega), BitVec.eq_of_toNat_eq (by omega)⟩

/-- Every byte is either still in the buffer or in a block that was compressed and counted (R105, R106). -/
theorem appendBytes_count (data : List Byte) (s : State) :
    (appendBytes data s).c.val + 128 * appendCompressions data s = s.c.val + data.length ∧
    counter (appendBytes data s) = counter s + BitVec.ofNat 128 (128 * appendCompressions data s) := by
  induction data generalizing s with
  | nil => simp [appendCompressions]
  | cons x xs ih =>
    obtain ⟨fill, count⟩ := ih (appendByte x s)
    rw [appendByte_c] at fill
    rw [appendByte_counter] at count
    rw [appendBytes_cons, appendCompressions, List.length_cons, count]
    by_cases full : s.c = 128
    · have block : (128 : Word).setWidth 128 = BitVec.ofNat 128 128 := rfl
      have hc : s.c.val = 128 := congrArg Fin.val full
      rw [if_pos full] at fill
      rw [if_pos full, if_pos full]
      refine ⟨by omega, ?_⟩
      rw [counter_ctrAdd, block, Nat.mul_add, BitVec.ofNat_add, BitVec.add_assoc]
    · rw [if_neg full] at fill
      rw [if_neg full, if_neg full, Nat.zero_add]
      exact ⟨by omega, rfl⟩

/-- A buffer that a byte was appended to is not empty: a full one is compressed for the sake of that byte (R33). -/
theorem appendBytes_c_pos {data : List Byte} {s : State} (h : data ≠ [] ∨ 0 < s.c.val) :
    0 < (appendBytes data s).c.val := by
  induction data generalizing s with
  | nil => simpa using h
  | cons x xs ih =>
    refine ih (.inr ?_)
    rw [appendByte_c]
    split
    · exact Nat.one_pos
    · exact Nat.succ_pos _

/-- The number of compressions of R106 in closed form: `max(0, ceil((c + n - 128) / 128))`. -/
theorem appendCompressions_eq (data : List Byte) (s : State) :
    appendCompressions data s = (s.c.val + data.length - 128 + 127) / 128 := by
  have fill := (appendBytes_count data s).1
  have room := (appendBytes data s).c.isLt
  by_cases empty : data = []
  · subst empty
    simp only [appendCompressions, List.length_nil]
    omega
  · have := appendBytes_c_pos (s := s) (.inl empty)
    omega

/-- An APPEND's state and answer: nothing is written but what its bytes write, and the response (R106). -/
theorem respond_appendBytes_frame (data : List Byte) (s : State) :
    respond .ok [] (appendBytes data s) =
      { s with h := (appendBytes data s).h, t0 := (appendBytes data s).t0, t1 := (appendBytes data s).t1,
               b := (appendBytes data s).b, c := (appendBytes data s).c, outbox := s.outbox ++ [⟨.ok, []⟩] } :=
  congrArg (respond .ok []) (appendBytes_frame data s)

/-- Settles O31: the count of `appendBytes_count`, with the number of compressions in closed form. -/
theorem appendFillAndCounterFollowTheCount : Obligations.AppendFillAndCounterFollowTheCount := by
  intro data s hp
  obtain ⟨fill, count⟩ := appendBytes_count data s
  rw [appendCompressions_eq] at fill count
  refine ⟨_, exec_append_ready data hp, ?_, ?_, count, respond_appendBytes_frame data s⟩
  · rw [compressions, if_pos hp, appendCompressions_eq]
  · rw [respond_c]
    omega

/-- Settles O30: the byte is placed, onto the flushed buffer where it was full. -/
theorem appendOneByteFollowsItsRule : Obligations.AppendOneByteFollowsItsRule := by
  intro x s hp
  refine ⟨_, exec_append_ready [x] hp, fun full => ?_, fun room => ?_, respond_appendBytes_frame [x] s⟩
  all_goals rw [appendBytes_cons, appendBytes_nil]
  · have hc : s.c = 128 := Fin.ext full
    have count : counter (ctrAdd 128 s) = counter s + 128 := counter_ctrAdd 128 s
    rw [appendByte_full x hc]
    refine ⟨count, congrArg (compress s.h s.b · false) count, rfl, placeByte_b_getElem x (flushBuffer s) 0,
      fun j hj => ?_⟩
    exact (placeByte_b_getElem x (flushBuffer s) j).trans (if_neg fun h => hj (Fin.ext h))
  · have hc : s.c ≠ 128 := fun h => by simp [h] at room
    rw [appendByte_room x hc]
    exact ⟨rfl, rfl, placeByte_c_val x room, placeByte_b_getElem x s⟩

/-- Settles O32: there is no byte that would find the buffer full. -/
theorem appendOfNothingChangesNothing : Obligations.AppendOfNothingChangesNothing := by
  intro s hp
  rw [exec_append_ready [] hp, appendBytes_nil]
  rfl

/-- An APPEND that compresses one block advances the counter once, as `ctr_add(128)` does (R102, R105). -/
theorem appendBytes_words_of_one_block (data : List Byte) (s : State) (hle : s.c.val + data.length ≤ 256)
    (hlt : 128 < s.c.val + data.length) :
    (appendBytes data s).t0 = (ctrAdd 128 s).t0 ∧ (appendBytes data s).t1 = (ctrAdd 128 s).t1 := by
  have one : appendCompressions data s = 1 := by
    rw [appendCompressions_eq]
    omega
  apply words_eq_of_counter_eq
  rw [(appendBytes_count data s).2, one, counter_ctrAdd]
  rfl

theorem exec_setctr_ready (t0 t1 : Word) {s : State} (h : s.phase = .ready) :
    exec (.setctr t0 t1) s = .next (respond .ok [] { s with t0 := t0, t1 := t1 }) :=
  whenReady_ready (fun s => respond .ok [] { s with t0 := t0, t1 := t1 }) h

/-- Settles O41: one compression adds 128 to the counter, and the sum in `T0` is 0, which carries. -/
theorem injectedCounterCarriesOnce : Obligations.InjectedCounterCarriesOnce := by
  intro t1 data s hp hle hlt
  have sum : (0xffffffffffffff80 + 128 : Word) = 0 := by decide
  have carry : (0xffffffffffffff80 + 128 : Word) < 128 := by decide
  obtain ⟨low, high⟩ := appendBytes_words_of_one_block data
    (respond .ok [] { s with t0 := 0xffffffffffffff80, t1 := t1 }) hle hlt
  rw [execAll_cons, exec_setctr_ready _ _ hp, andThen_next, execAll_cons, exec_append_ready data (by exact hp),
    andThen_next, execAll_nil]
  exact ⟨_, rfl, low.trans sum, high.trans (if_pos carry)⟩

end Sys2Proof.Machine
end

section
/-!
PROOF. SETUP: the parameter word, the registers it writes, and the key as the first block of the input (41_hasher.md
R100 to R104).
-/

namespace Sys2Proof

open Machine

/-- The parameter word is its bytes side by side: `0x0101` above `KK` above `NN` (R100). -/
theorem paramWord_eq_append (nn kk : Byte) : paramWord nn kk = (0x0101 : BitVec 48) ++ kk ++ nn := by
  apply BitVec.eq_of_getLsbD_eq
  intro i hi
  simp only [paramWord, BitVec.getLsbD_xor, BitVec.getLsbD_shiftLeft, BitVec.getLsbD_setWidth, BitVec.getLsbD_append]
  interval_cases i <;> simp

/-- Settles O24: nothing carries between the bytes that `paramWord_eq_append` puts side by side. -/
theorem parameterWordHoldsItsFourBytes : Obligations.ParameterWordHoldsItsFourBytes := by
  intro nn kk
  have upper : (0x0101 : BitVec 48).toNat = 0x0101 := rfl
  rw [paramWord_eq_append, toNat_append_eq_add, toNat_append_eq_add, upper]
  omega

theorem initHash_zero (nn kk : Byte) : (initHash nn kk)[0] = iv[0] ^^^ paramWord nn kk := by
  simp [initHash]

theorem initHash_of_ne_zero (nn kk : Byte) {i : Fin 8} (h : i ≠ 0) : (initHash nn kk)[i] = iv[i] := by
  have hi : (0 : Nat) ≠ i.val := fun e => h (Fin.ext e.symm)
  simp [initHash, hi]

/-- A byte of the padded first `k` bytes of `s` is that byte of `s`, or zero past `k`. -/
theorem padTo_take_getElem {n : Nat} (s : List Byte) (k : Nat) (j : Fin n) :
    (padTo n (s.take k))[j] = if j.val < k then s.getD j.val 0 else 0 := by
  simp only [Fin.getElem_fin, padTo_getElem, List.getD_eq_getElem?_getD, List.getElem?_take]
  split <;> rfl

@[simp] theorem counter_startHash (nn kk : Byte) (s : State) : counter (startHash nn kk s) = 0 := by
  simp [counter]

/-- SETUP's buffer with a key (R103). -/
theorem loadKey_of_pos {kk : Byte} (key : Vector Byte 64) (s : State) (h : 0 < kk.toNat) :
    loadKey kk key s = { s with b := padTo 128 (key.toList.take kk.toNat), c := 128 } :=
  if_pos h

/-- Settles O26: register by register. -/
theorem setupStartsAComputation : Obligations.SetupStartsAComputation := by
  intro nn kk key s hnn hnn' hkk
  have valid := (configValid_iff nn kk).2 ⟨hnn, hnn', hkk⟩
  refine ⟨_, exec_setup_valid key s valid, ?hash, ?words, ?t0, ?t1, ?nn, ?kk, rfl, ?noKey, ?withKey, ?flags⟩
  case hash =>
    rw [respond_h, setPhase_h, loadKey_h, startHash_h]
    exact initHash_zero nn kk
  case words =>
    intro i hi
    rw [respond_h, setPhase_h, loadKey_h, startHash_h]
    exact initHash_of_ne_zero nn kk hi
  case t0 => simp
  case t1 => simp
  case nn => simp
  case kk => simp
  case noKey =>
    rintro rfl
    exact ⟨rfl, rfl⟩
  case withKey =>
    intro hk
    have pos : 0 < kk.toNat := Nat.pos_of_ne_zero fun h => hk (BitVec.eq_of_toNat_eq h)
    rw [loadKey_of_pos key _ pos]
    exact ⟨rfl, padTo_take_getElem key.toList kk.toNat⟩
  case flags => simp

/-- Settles O27: one operand out of range is enough for SETUP to reject them. -/
theorem setupOutOfRangeIsConfigError : Obligations.SetupOutOfRangeIsConfigError := by
  intro nn kk key s out
  have invalid : configValid nn kk = false := by
    rw [← Bool.not_eq_true, configValid_iff]
    omega
  rw [exec_setup_invalid key s invalid]
  rfl

/-- A block appended to an empty buffer becomes the buffer, and nothing is compressed (R33, R104). -/
theorem appendBytes_block_of_empty (block : Block) {s : State} (hc : s.c = 0) :
    appendBytes block.toList s = { s with b := block, c := 128 } := by
  have hval : s.c.val = 0 := congrArg Fin.val hc
  obtain ⟨fill, bytes, frame⟩ := appendBytes_within_buffer block.toList s (by simp [hval])
  have hb : (appendBytes block.toList s).b = block := by
    apply Vector.ext
    intro j hj
    refine (bytes ⟨j, hj⟩).trans ?_
    simp [hval, hj]
  have hfull : (appendBytes block.toList s).c = 128 := by
    apply Fin.ext
    simpa [hval] using fill
  rw [frame, hb, hfull]

/-- Fewer bytes, onto an empty buffer of zeros: what is left of the block is zero (R104). -/
theorem appendBytes_onto_zeros {data : List Byte} {s : State} (hc : s.c = 0) (hb : s.b = Vector.replicate 128 0)
    (hlen : data.length ≤ 128) :
    { appendBytes data s with c := 128 } = { s with b := padTo 128 data, c := 128 } := by
  have hval : s.c.val = 0 := congrArg Fin.val hc
  obtain ⟨-, bytes, frame⟩ := appendBytes_within_buffer data s (by omega)
  have padded : (appendBytes data s).b = padTo 128 data := by
    apply Vector.ext
    intro j hj
    refine (bytes ⟨j, hj⟩).trans ?_
    rw [padTo_getElem]
    by_cases hin : j < data.length
    · simp [hval, hin]
    · simp [hval, hin, hb]
  rw [frame, padded]

/-- Settles O28: both ways of appending leave the padded key in the buffer, as SETUP does. -/
theorem keyIsTheFirstBlockOfTheInput : Obligations.KeyIsTheFirstBlockOfTheInput := by
  intro nn kk key s hnn hnn' hkk hkk' started keyBytes appended short
  have valid := (configValid_iff nn kk).2 ⟨hnn, hnn', hkk'⟩
  have whole : appended = { started with b := padTo 128 keyBytes, c := 128 } := appendBytes_block_of_empty _ rfl
  have keyOnly : { short with c := 128 } = { started with b := padTo 128 keyBytes, c := 128 } :=
    appendBytes_onto_zeros rfl rfl (by simp [keyBytes])
  rw [keyOnly, whole, exec_setup_valid key s valid, loadKey_of_pos key _ hkk]
  exact ⟨rfl, rfl, rfl, rfl, counter_startHash nn kk s, rfl⟩

end Sys2Proof
end

section
/-!
PROOF. FINALIZE: the last compression and the digest (41_hasher.md R107, R108).
-/

namespace Sys2Proof

open Machine

/-- Byte `j` of a word's encoding (R10). -/
theorem leBytes64_getElem? (w : Word) (j : Fin 8) : (leBytes64 w)[j.val]? = some (w.extractLsb' (8 * j.val) 8) := by
  fin_cases j <;> rfl

/-- FINALIZE counts the staged bytes (R107). -/
theorem counter_finishHash_eq_add (s : State) : counter (finishHash s) = counter s + BitVec.ofNat 128 s.c.val := by
  have amount : (BitVec.ofNat 64 s.c.val).setWidth 128 = BitVec.ofNat 128 s.c.val := by
    apply BitVec.eq_of_toNat_eq
    have := s.c.isLt
    simp only [BitVec.toNat_setWidth, BitVec.toNat_ofNat]
    omega
  rw [finishHash_counter, counter_ctrAdd, amount]

/-- Settles O35: the answer is that of `finishHash`, register by register. -/
theorem finalizeCompressesTheLastBlock : Obligations.FinalizeCompressesTheLastBlock := by
  intro s hp
  refine ⟨_, exec_finalize_ready hp, ?count, fun j => ?bytes, ?hash, rfl, rfl, rfl⟩
  case count => exact counter_finishHash_eq_add s
  case bytes =>
    rw [respond_b, finishHash_b, padTo_take_getElem]
    simp
  case hash =>
    rw [respond_h, respond_b, counter_respond, finishHash_b, finishHash_counter, Machine.finishHash_h]

/-- Settles O36: byte `8i + j` of the encoded hash state is byte `j` of its word `i`. -/
theorem digestBytesComeFromTheFinalState : Obligations.DigestBytesComeFromTheFinalState := by
  intro s hp hnn
  refine ⟨_, digest (finishHash s), exec_finalize_ready hp, ?_, ?_, fun i j hlt => ?_⟩
  · rw [respond_outbox, finishHash_outbox]
  · simp [digest, hnn]
  · rw [digest, finishHash_nn, List.getElem?_take_of_lt hlt, leBytes_getElem? _ i.val j.val i.isLt j.isLt,
      leBytes64_getElem? _ j]
    rfl

end Sys2Proof
end

section
/-!
PROOF. The edge cases of 41_hasher.md R112, read off the closed form of R109.
-/

namespace Sys2Proof

open Machine

/-! The closed form on inputs of at most 129 bytes (R109). -/

theorem finalState_of_length_le (h : HashState) {input : List Byte} (hlen : input.length ≤ 128) :
    finalState h input = compress h (padTo 128 input) (BitVec.ofNat 128 input.length) true := by
  have first : blockCount input.length - 1 = 0 := by
    rw [blockCount_sub_one, doneBlocks]
    omega
  rw [finalState, first, chain_zero, Nat.mul_zero, List.drop_zero]

/-- The first block, when it is not the last, is compressed with `T = 128`. -/
theorem chain_one (h : HashState) (block : Block) (rest : List Byte) :
    chain h (block.toList ++ rest) 1 = compress h block 128 false := by
  have first : ((block.toList ++ rest).drop (128 * 0)).take 128 = block.toList := by
    rw [Nat.mul_zero, List.drop_zero, List.take_append_of_le_length (by simp), List.take_of_length_le (by simp)]
  have count : BitVec.ofNat 128 (128 * (0 + 1)) = 128 := rfl
  rw [chain_succ, chain_zero, first, padTo_of_vector, count]

theorem finalState_block_byte (h : HashState) (block : Block) (x : Byte) :
    finalState h (block.toList ++ [x]) = compress (compress h block 128 false) (padTo 128 [x]) 129 true := by
  have len : (block.toList ++ [x]).length = 129 := by simp
  have second : blockCount 129 - 1 = 1 := rfl
  have left : (block.toList ++ [x]).drop (128 * 1) = [x] := List.drop_left' (by simp)
  have count : BitVec.ofNat 128 129 = 129 := rfl
  rw [finalState, len, second, chain_one, left, count]

theorem inputOf_no_key (key : Vector Byte 64) (msg : List Byte) : inputOf 0 key msg = msg := rfl

theorem inputOf_key {kk : Byte} (key : Vector Byte 64) (msg : List Byte) (h : 0 < kk.toNat) :
    inputOf kk key msg = (padTo 128 (key.toList.take kk.toNat)).toList ++ msg := by
  rw [inputOf, if_pos h]

/-! The commands' compressions, on a state that has taken in an input (R106, R107, R168). -/

/-- APPEND compresses the blocks that the message bytes complete and do not end with (R33, R106). -/
theorem AbsorbedBy.compressions_append {h : HashState} {input : List Byte} {s : State} (ha : AbsorbedBy h input s)
    (data : List Byte) :
    compressions (.append data) s = doneBlocks (input ++ data).length - doneBlocks input.length := by
  have fill := ha.fill
  have room := s.c.isLt
  rw [compressions, if_pos ha.phase, appendCompressions_eq, List.length_append]
  unfold doneBlocks at fill ⊢
  omega

theorem compressions_finalize_ready {s : State} (hp : s.phase = .ready) : compressions .finalize s = 1 :=
  if_pos hp

theorem AbsorbedBy.exec_finalize {h : HashState} {input : List Byte} {s : State} (ha : AbsorbedBy h input s) :
    ∃ v, exec .finalize s = .next v ∧ counter v = BitVec.ofNat 128 input.length ∧ v.h = finalState h input :=
  ⟨_, exec_finalize_ready ha.phase, ha.counter_finishHash, ha.finishHash_h⟩

section
variable {nn kk : Byte} (key : Vector Byte 64) (s : State) (valid : configValid nn kk = true)
include valid

theorem exec_setup_absorbedBy :
    ∃ t, exec (.setup nn kk key) s = .next t ∧ AbsorbedBy (initHash nn kk) (inputOf kk key []) t :=
  ⟨_, exec_setup_valid key s valid, (setup_absorbedBy nn kk key s).respond .ok []⟩

/-- An empty message: FINALIZE performs the one compression, of the input that SETUP took in. -/
theorem setup_finalize_compressions :
    ∃ t u, execAll [.setup nn kk key] s = .next t ∧ compressions .finalize t = 1 ∧
      execAll [.setup nn kk key, .finalize] s = .next u ∧
      counter u = BitVec.ofNat 128 (inputOf kk key []).length ∧
      u.h = compress (initHash nn kk) (padTo 128 (inputOf kk key [])) (BitVec.ofNat 128 (inputOf kk key []).length)
        true := by
  obtain ⟨t, setup, took⟩ := exec_setup_absorbedBy key s valid
  obtain ⟨u, finalize, count, hash⟩ := took.exec_finalize
  rw [finalState_of_length_le _ (by rw [inputOf_length]; split <;> simp)] at hash
  refine ⟨t, u, ?_, compressions_finalize_ready took.phase, ?_, count, hash⟩
  · simp only [execAll_cons, execAll_nil, setup, andThen_next]
  · simp only [execAll_cons, execAll_nil, setup, finalize, andThen_next]

/-- A message in one APPEND: it performs the compressions but the last, and FINALIZE that one. -/
theorem setup_append_finalize_compressions (msg : List Byte) :
    ∃ t u v, execAll [.setup nn kk key] s = .next t ∧
      compressions (.append msg) t = doneBlocks (inputOf kk key msg).length ∧
      execAll [.setup nn kk key, .append msg] s = .next u ∧
      counter u = BitVec.ofNat 128 (128 * doneBlocks (inputOf kk key msg).length) ∧
      u.h = chain (initHash nn kk) (inputOf kk key msg) (doneBlocks (inputOf kk key msg).length) ∧
      compressions .finalize u = 1 ∧
      execAll [.setup nn kk key, .append msg, .finalize] s = .next v ∧
      counter v = BitVec.ofNat 128 (inputOf kk key msg).length ∧
      v.h = finalState (initHash nn kk) (inputOf kk key msg) := by
  obtain ⟨t, setup, took⟩ := exec_setup_absorbedBy key s valid
  have append := exec_append_ready msg took.phase
  have tookMsg := (took.appendBytes msg).respond .ok []
  have calls := took.compressions_append msg
  have nothing : doneBlocks (inputOf kk key []).length = 0 := by
    rw [inputOf_length]
    split <;> rfl
  rw [inputOf_append] at tookMsg calls
  obtain ⟨v, finalize, count, hash⟩ := tookMsg.exec_finalize
  refine ⟨t, _, v, ?_, by rw [calls, nothing, Nat.sub_zero], ?_, tookMsg.count, tookMsg.hash,
    compressions_finalize_ready tookMsg.phase, ?_, count, hash⟩
  · simp only [execAll_cons, execAll_nil, setup, andThen_next]
  · simp only [execAll_cons, execAll_nil, setup, append, andThen_next]
  · simp only [execAll_cons, execAll_nil, setup, append, finalize, andThen_next]

end

/-- Settles O52: each case is a run of the two lemmas above, and its closed form has at most two blocks. -/
theorem edgeCasesCompressAsTheirRulesSay : Obligations.EdgeCasesCompressAsTheirRulesSay := by
  intro nn kk key s hnn hnn' hkk hkk'
  have unkeyed := (configValid_iff nn 0).2 ⟨hnn, hnn', by decide⟩
  have keyed := (configValid_iff nn kk).2 ⟨hnn, hnn', hkk'⟩
  have keyInput : inputOf kk key [] = (padTo 128 (key.toList.take kk.toNat)).toList := by
    rw [inputOf_key key [] hkk, List.append_nil]
  refine ⟨?empty, fun m => ?oneBlock, fun m x => ?oneByteMore, ?emptyKeyed, fun x => ?firstByteKeyed⟩
  case empty =>
    obtain ⟨t, u, setup, one, run, count, hash⟩ := setup_finalize_compressions key s unkeyed
    have zeros : padTo 128 [] = Vector.replicate 128 0 := by ext j hj; simp
    rw [inputOf_no_key, zeros] at hash
    exact ⟨t, u, setup, one, run, count, hash⟩
  case oneBlock =>
    obtain ⟨t, u, v, setup, calls, run, count, hash, one, run', count', hash'⟩ :=
      setup_append_finalize_compressions key s unkeyed m.toList
    have len : m.toList.length = 128 := by simp
    have nothing : doneBlocks 128 = 0 := rfl
    rw [inputOf_no_key, len, nothing] at calls count hash
    rw [inputOf_no_key] at count' hash'
    rw [finalState_of_length_le _ len.le, len, padTo_of_vector] at hash'
    rw [len] at count'
    rw [chain_zero] at hash
    exact ⟨t, u, v, setup, calls, run, count, hash, one, run', count', hash'⟩
  case oneByteMore =>
    obtain ⟨t, u, v, setup, calls, run, count, hash, one, run', count', hash'⟩ :=
      setup_append_finalize_compressions key s unkeyed (m.toList ++ [x])
    have len : (m.toList ++ [x]).length = 129 := by simp
    have first : doneBlocks 129 = 1 := rfl
    rw [inputOf_no_key, len, first] at calls count hash
    rw [chain_one] at hash
    rw [inputOf_no_key, len] at count'
    rw [inputOf_no_key, finalState_block_byte] at hash'
    exact ⟨t, u, v, setup, calls, run, count, hash, one, run', count', hash'⟩
  case emptyKeyed =>
    obtain ⟨t, u, setup, one, run, count, hash⟩ := setup_finalize_compressions key s keyed
    rw [keyInput, Vector.length_toList] at count hash
    rw [padTo_of_vector] at hash
    exact ⟨t, u, setup, one, run, count, hash⟩
  case firstByteKeyed =>
    obtain ⟨t, u, v, setup, calls, run, count, hash, -⟩ := setup_append_finalize_compressions key s keyed [x]
    have first : doneBlocks (inputOf kk key [x]).length = 1 := by
      rw [inputOf_key key [x] hkk, List.length_append, Vector.length_toList, List.length_singleton]
      rfl
    rw [first] at calls count hash
    rw [inputOf_key key [x] hkk, chain_one] at hash
    exact ⟨t, u, setup, calls, run, count, hash⟩

end Sys2Proof
end

section
/-!
PROOF. STATUS and SETCTR: the four bytes of the STATUS word, and the overwritten counter (42_control.md R130, R131).
-/

namespace Sys2Proof.Machine

/-- The first byte of the STATUS word, its fields side by side: zeros above the sticky flags above `PHASE` (R28). -/
def statusLowByte (s : State) : Byte :=
  0#3 ++ BitVec.ofBool s.badcmdSeen ++ BitVec.ofBool s.configSeen ++ BitVec.ofBool s.misuseSeen ++
    phaseCode s.phase

theorem statusWord_lowByte (s : State) : (statusWord s).extractLsb' 0 8 = statusLowByte s := by
  apply statusWord_field
  intro j hj
  rw [statusWord_getLsbD s _ (by omega)]
  simp only [statusLowByte, BitVec.getLsbD_append]
  interval_cases j <;> simp

/-- The fields of the low byte do not overlap, so the byte is their sum (R28). -/
theorem statusLowByte_toNat (s : State) :
    (statusLowByte s).toNat =
      (phaseCode s.phase).toNat + 4 * s.misuseSeen.toNat + 8 * s.configSeen.toNat + 16 * s.badcmdSeen.toNat := by
  simp only [statusLowByte, toNat_append_eq_add, BitVec.toNat_ofBool, BitVec.toNat_zero]
  omega

theorem leBytes32_statusWord (s : State) :
    leBytes32 (statusWord s) = [statusLowByte s, BitVec.ofNat 8 s.c.val, s.nn, s.kk] := by
  obtain ⟨-, -, -, -, -, fill, digestLength, keyLength⟩ := statusWordHoldsItsFields s
  rw [leBytes32, statusWord_lowByte, fill, digestLength, keyLength]

theorem exec_status (s : State) : exec .status s = .next (respond .ok (leBytes32 (statusWord s)) s) := rfl

/-- Settles O38: the answer's bytes are those of `leBytes32_statusWord`. -/
theorem statusAnswersItsFourBytes : Obligations.StatusAnswersItsFourBytes := by
  intro s
  refine ⟨statusLowByte s, ?_, statusLowByte_toNat s⟩
  rw [exec_status, leBytes32_statusWord, respond]

/-- Settles O40: in `Ready` SETCTR is performed, and the answer is its only other effect. -/
theorem setctrOverwritesTheCounter : Obligations.SetctrOverwritesTheCounter :=
  fun t0 t1 _ hp => exec_setctr_ready t0 t1 hp

end Sys2Proof.Machine
end

section
/-!
PROOF. The errors and the sticky flags: what an error answer changes, that the flags stop nothing, and what they show at
the end of a run (60_exceptions.md R140 to R145, R155; 70_reset_and_hazards.md R165).
-/

namespace Sys2Proof

open Machine

/-! Error answers (R140 to R145). -/

/-- The three commands of R142 fail the phase check before anything else. -/
theorem exec_misuse {i : Instr} {s : State} (hp : s.phase ≠ .ready)
    (hi : (∃ data, i = .append data) ∨ i = .finalize ∨ ∃ t0 t1, i = .setctr t0 t1) :
    exec i s = .next (raise .misuse s) := by
  rcases hi with ⟨data, rfl⟩ | rfl | ⟨t0, t1, rfl⟩
  · rw [exec, execAppend, whenReady_not_ready _ hp]
  · rw [exec, execFinalize, whenReady_not_ready _ hp]
  · rw [exec, execSetctr, whenReady_not_ready _ hp]

/-- Settles O42: the raised MISUSE is its flag and its answer. -/
theorem commandsOutsideReadyAreMisuse : Obligations.CommandsOutsideReadyAreMisuse :=
  fun _ _ => exec_misuse

/-- Settles O9: a reserved header decodes to illegal, and its owed payload makes the bytes one command. -/
theorem illegalHeaderIsAnsweredBadcmd : Obligations.IllegalHeaderIsAnsweredBadcmd := by
  intro s hdr payload rest reserved hlen hin
  obtain ⟨why, illegal⟩ := decodeHeader_of_reserved reserved
  rw [owedLength_eq] at hlen
  rw [step_command hin, decode_header_payload, if_pos hlen, illegal]
  rfl

/-- A command is answered OK, or it raises one of its two errors with no other effect than that of R145 (R143). -/
theorem exec_ok_or_raise {i : Instr} {s s' : State} (h : exec i s = .next s') :
    (∃ payload, s'.outbox = s.outbox ++ [⟨.ok, payload⟩]) ∨
    s' = raise .configError (setPhase .unconfigured s) ∨ s' = raise .misuse s := by
  rcases exec_cases h with ⟨nn, kk, key, rfl, hv, rfl⟩ | ⟨nn, kk, key, rfl, hv, rfl⟩ | ⟨data, rfl, hp, rfl⟩ |
    ⟨rfl, hp, rfl⟩ | ⟨t0, t1, rfl, hp, rfl⟩ | ⟨hi, hp, rfl⟩ | ⟨h0, b, t0, t1, last, rfl, rfl⟩ | ⟨rfl, rfl⟩
  case inr.inl => exact .inr (.inl rfl)
  case inr.inr.inr.inr.inr.inl => exact .inr (.inr rfl)
  all_goals exact .inl ⟨_, by simp; rfl⟩

/-- Settles O43: the two errors of a decoded command by `exec_ok_or_raise`, and the BADCMD of an illegal header. -/
theorem errorsLeaveNoPartialEffect : Obligations.ErrorsLeaveNoPartialEffect := by
  intro s s' bytes rest r hin hstep hr herror
  rw [step_command hin] at hstep
  cases hd : decode bytes with
  | instr i =>
    rw [hd] at hstep
    rcases exec_ok_or_raise hstep with ⟨payload, hok⟩ | rfl | rfl
    · obtain rfl : ⟨.ok, payload⟩ = r := by simpa [hr] using hok.symm
      exact absurd rfl herror
    · obtain rfl : ⟨.configError, []⟩ = r := by simpa using hr
      rfl
    · obtain rfl : ⟨.misuse, []⟩ = r := by simpa using hr
      rfl
  | illegal why =>
    rw [hd] at hstep
    cases hstep
    obtain rfl : ⟨.badCmd, []⟩ = r := by simpa using hr
    rfl
  | illFramed =>
    rw [hd] at hstep
    cases hstep

/-! The flags stop nothing (R144). -/

/-- The state with these sticky flags instead of its own. -/
def withFlags (m g d : Bool) (s : State) : State :=
  { s with misuseSeen := m, configSeen := g, badcmdSeen := d }

theorem appendBytes_withFlags (m g d : Bool) (xs : List Byte) (s : State) :
    appendBytes xs (withFlags m g d s) = withFlags m g d (appendBytes xs s) := by
  induction xs generalizing s with
  | nil => rfl
  | cons x xs ih =>
    have byte : appendByte x (withFlags m g d s) = withFlags m g d (appendByte x s) := by
      by_cases hc : s.c = 128
      · rw [appendByte_full x hc, appendByte_full x (s := withFlags m g d s) hc]
        rfl
      · rw [appendByte_room x hc, appendByte_room x (s := withFlags m g d s) hc]
        rfl
    rw [appendBytes_cons, byte, ih, appendBytes_cons]

theorem loadKey_withFlags (m g d : Bool) (kk : Byte) (key : Vector Byte 64) (s : State) :
    loadKey kk key (withFlags m g d s) = withFlags m g d (loadKey kk key s) := by
  by_cases hk : 0 < kk.toNat
  · simp only [loadKey, if_pos hk]
    rfl
  · simp only [loadKey, if_neg hk]
    rfl

/-- Settles O45: no command but STATUS reads a flag, and an error writes its own. -/
theorem stickyFlagsDoNotStopTheCore : Obligations.StickyFlagsDoNotStopTheCore := by
  intro s s' i m g d hi h
  change ∃ m' g' d', exec i (withFlags m g d s) = .next (withFlags m' g' d' s')
  rcases exec_cases h with ⟨nn, kk, key, rfl, hv, rfl⟩ | ⟨nn, kk, key, rfl, hv, rfl⟩ | ⟨data, rfl, hp, rfl⟩ |
    ⟨rfl, hp, rfl⟩ | ⟨t0, t1, rfl, hp, rfl⟩ | ⟨failing, hp, rfl⟩ | ⟨h0, b, t0, t1, last, rfl, rfl⟩ | ⟨rfl, rfl⟩
  · have start : startHash nn kk (withFlags m g d s) = withFlags m g d (startHash nn kk s) := rfl
    refine ⟨m, g, d, ?_⟩
    rw [exec_setup_valid key _ hv, start, loadKey_withFlags]
    rfl
  · exact ⟨m, true, d, exec_setup_invalid key _ hv⟩
  · refine ⟨m, g, d, ?_⟩
    rw [exec_append_ready data (s := withFlags m g d s) hp, appendBytes_withFlags]
    rfl
  · exact ⟨m, g, d, exec_finalize_ready (s := withFlags m g d s) hp⟩
  · exact ⟨m, g, d, exec_setctr_ready t0 t1 (s := withFlags m g d s) hp⟩
  · exact ⟨true, g, d, exec_misuse (s := withFlags m g d s) hp failing⟩
  · exact ⟨m, g, d, rfl⟩
  · exact absurd rfl hi

/-! The contract of digest claims (R155). -/

/-- A step answers at most once. -/
theorem step_outbox {s s' : State} (h : step s = .next s') :
    s'.outbox = s.outbox ∨ ∃ r, s'.outbox = s.outbox ++ [r] ∧ (r.code ≠ .ok → r.payload = []) := by
  rcases hin : s.inbox with _ | ⟨⟨bytes⟩ | _, rest⟩
  · rw [step_idle hin] at h
    cases h
    exact .inl rfl
  · exact .inr (everyCommandGetsOneResponse s s' bytes rest hin h).2
  · rw [step_reset hin] at h
    cases h
    exact .inl rfl

theorem sentCodes_eq {s s' : State} {sentSince : List Response} (h : s'.outbox = s.outbox ++ sentSince) :
    sentCodes s s' = sentSince.map Response.code := by
  rw [sentCodes, h, List.drop_left]

theorem contractStep_of_step {s s' : State} (h : step s = .next s') :
    contractStep s =
      if .misuse ∈ sentCodes s s' then .fault .misuse
      else if .badCmd ∈ sentCodes s s' then .fault .badCmd
      else .next s' := by
  rw [contractStep, h]

/-- Settles O56: a step that answers nothing sends no code, and one that answers sends the one code of its response. -/
theorem contractFaultsExactlyOnMisuseAndBadcmd : Obligations.ContractFaultsExactlyOnMisuseAndBadcmd := by
  intro s s' hstep
  rw [contractStep_of_step hstep]
  rcases step_outbox hstep with silent | ⟨⟨code, payload⟩, answered, noPayload⟩
  · rw [sentCodes_eq (sentSince := []) (by simpa using silent), silent]
    simp
  · rw [sentCodes_eq answered, answered]
    cases code with
    | ok => simp
    | configError => simp
    | misuse =>
      obtain rfl : payload = [] := noPayload nofun
      simp
    | badCmd =>
      obtain rfl : payload = [] := noPayload nofun
      simp

/-- Without a reset, the flags of R155 are clear after a step exactly when they were clear before it and it was answered
neither MISUSE nor BADCMD (R27, R144). -/
theorem step_clean_iff {s s' : State} (noReset : .reset ∉ s.inbox) (h : step s = .next s') :
    .reset ∉ s'.inbox ∧ ∃ sentSince, s'.outbox = s.outbox ++ sentSince ∧
      (Clean s' ↔ Clean s ∧ ∀ r ∈ sentSince, r.code ≠ .misuse ∧ r.code ≠ .badCmd) := by
  rcases hin : s.inbox with _ | ⟨⟨bytes⟩ | _, rest⟩
  · rw [step_idle hin] at h
    cases h
    exact ⟨noReset, [], by simp⟩
  · obtain ⟨inbox, r, answered, -⟩ := everyCommandGetsOneResponse s s' bytes rest hin h
    obtain ⟨misuse, -, badcmd⟩ := stickyFlagsRecordTheErrors.1 s s' bytes rest r hin h answered
    rw [hin] at noReset
    refine ⟨inbox ▸ List.not_mem_of_not_mem_cons noReset, [r], answered, ?_⟩
    simp only [Clean, misuse, badcmd, Bool.or_eq_false_iff, beq_eq_false_iff_ne, List.forall_mem_singleton]
    exact and_and_and_comm
  · simp [hin] at noReset

theorem run_succ_eq_next {k : Nat} {s s' : State} (h : core.run (k + 1) s = .next s') :
    ∃ t, step s = .next t ∧ core.run k t = .next s' := by
  simp only [Host.Core.run] at h
  split at h
  case h_1 t hstep => exact ⟨t, hstep, h⟩
  case h_2 => cases h
  case h_3 => cases h

/-- What `step_clean_iff` says of a step holds of any number of them. -/
theorem run_clean_iff {k : Nat} {s s' : State} (noReset : .reset ∉ s.inbox) (h : core.run k s = .next s') :
    ∃ sentSince, s'.outbox = s.outbox ++ sentSince ∧
      (Clean s' ↔ Clean s ∧ ∀ r ∈ sentSince, r.code ≠ .misuse ∧ r.code ≠ .badCmd) := by
  induction k generalizing s with
  | zero =>
    cases h
    exact ⟨[], by simp⟩
  | succ k ih =>
    obtain ⟨t, hstep, hrun⟩ := run_succ_eq_next h
    obtain ⟨noReset', first, hfirst, clean⟩ := step_clean_iff noReset hstep
    obtain ⟨later, hlater, clean'⟩ := ih noReset' hrun
    refine ⟨first ++ later, by rw [hlater, hfirst, List.append_assoc], ?_⟩
    rw [clean', clean, List.forall_mem_append, and_assoc]

/-- Settles O57: one direction of `run_clean_iff`. -/
theorem clearFlagsShowACleanRun : Obligations.ClearFlagsShowACleanRun := by
  intro k s s' noReset hrun clean
  obtain ⟨sentSince, answered, cleanIff⟩ := run_clean_iff noReset hrun
  obtain ⟨cleanBefore, inContract⟩ := cleanIff.1 clean
  exact ⟨cleanBefore, sentSince, answered, inContract⟩

end Sys2Proof
end

section
/-!
PROOF. What the host sends early, and the reset input (20_memory.md R48; 70_reset_and_hazards.md R160, R163; 10_state.md
R35).
-/

namespace Sys2Proof

open Machine

/-- A command neither reads nor writes what the host has sent, so it commutes with the delivery of one more event. -/
theorem exec_deliver (i : Instr) (e : HostEvent) (s : State) :
    exec i (deliver e s) = andThen (exec i s) fun t => .next (deliver e t) := by
  obtain ⟨s', hexec⟩ := exec_answers i s
  obtain ⟨inbox, -⟩ := exec_host_and_flags_frame hexec
  rw [hexec, andThen_next, deliver, deliver, inbox]
  exact exec_withInbox (s.inbox ++ [e]) hexec

/-- Whatever the core performs, an event sent meanwhile is held behind the others (R48, R163). -/
theorem performEvent_deliver (first e : HostEvent) (s : State) :
    performEvent exec first (deliver e s) = andThen (performEvent exec first s) fun t => .next (deliver e t) := by
  cases first with
  | reset => rfl
  | command bytes =>
    simp only [performEvent]
    cases decode bytes with
    | instr i => exact exec_deliver i e s
    | illegal why => rfl
    | illFramed => rfl

/-- A step with something to perform commutes with the delivery of one more event. -/
theorem step_deliver (e : HostEvent) {s : State} (waiting : s.inbox ≠ []) :
    step (deliver e s) = andThen (step s) fun t => .next (deliver e t) := by
  obtain ⟨first, rest, hin⟩ := List.exists_cons_of_ne_nil waiting
  have hin' : (deliver e s).inbox = first :: (rest ++ [e]) := by rw [deliver_inbox, hin, List.cons_append]
  rw [step_event hin, step_event hin']
  exact performEvent_deliver first e { s with inbox := rest }

/-- Settles O12: both clauses are `step_deliver`, for a step that goes on and for one that is refused. -/
theorem earlyCommandIsHeld : Obligations.EarlyCommandIsHeld := by
  intro s e waiting
  rw [step_deliver e waiting]
  refine ⟨fun s' hstep => ?_, fun r hstep => ?_⟩
  · rw [hstep, andThen_next]
  · rw [hstep, andThen_refused]

/-- STATUS reads only registers that reset sets, so it reads the same as in the reset state (R28, R160). -/
theorem statusWord_applyReset (s : State) : statusWord (applyReset s) = statusWord State.reset := rfl

/-- Settles O13: the step is `applyReset` on the state without the event, and STATUS reads as O14 says. -/
theorem resetAppliesTheResetValues : Obligations.ResetAppliesTheResetValues := by
  intro s rest hin
  obtain ⟨-, -, -, -, -, -, -, status⟩ := resetStateHoldsTheResetValues
  have reads : statusWord (applyReset { s with inbox := rest }) = 0 := (statusWord_applyReset _).trans status
  exact ⟨_, step_reset hin, rfl, rfl, rfl, rfl, rfl, rfl, rfl, reads, rfl, rfl⟩

end Sys2Proof
end
